-- ==== Sys2Proof/Word.lean ====
section
/-! DEFINITION. The widths of R6 (00_scope.md): bytes, words, the 12-bit address field, register numbers. -/

namespace Sys2Proof

/-- A register, a timer or a memory byte: 8 bits (R20, R30, R35). -/
abbrev Byte := BitVec 8

/-- An instruction word, `pc`, `I` or a return address: 16 bits (R23, R26, R27, R70). -/
abbrev Word := BitVec 16

/-- The `nnn` field: a 12-bit unsigned address (R71). -/
abbrev Addr12 := BitVec 12

/-- A register number 0..15, as the fields `x` and `y` name it (R71, R73). -/
abbrev Reg := Fin 16

end Sys2Proof
end

