-- ==== Sys2Proof/Syntax.lean ====
section
/-! DEFINITION. The instructions: one constructor per row of spec/opcode_table.json (R76, 30_encoding.md). -/

namespace Sys2Proof

/-- An instruction with its fields (R71, R72), in the order of the table of R76. -/
inductive Instr where
  /-- Row 1, `00E0` `CLS` (R180). -/
  | cls
  /-- Row 2, `00EE` `RET` (R122). -/
  | ret
  /-- Row 3, every other `0nnn`: the reserved class `SYS nnn` (R121). -/
  | sys (nnn : Addr12)
  /-- Row 4, `1nnn` `JP nnn` (R123). -/
  | jp (nnn : Addr12)
  /-- Row 5, `2nnn` `CALL nnn` (R125). -/
  | call (nnn : Addr12)
  /-- Row 6, `3xkk` `SE Vx, kk` (R127). -/
  | seImm (x : Reg) (kk : Byte)
  /-- Row 7, `4xkk` `SNE Vx, kk` (R128). -/
  | sneImm (x : Reg) (kk : Byte)
  /-- Row 8, `5xy0` `SE Vx, Vy` (R129). -/
  | seReg (x y : Reg)
  /-- Row 9, `6xkk` `LD Vx, kk` (R142). -/
  | ldImm (x : Reg) (kk : Byte)
  /-- Row 10, `7xkk` `ADD Vx, kk` (R144). -/
  | addImm (x : Reg) (kk : Byte)
  /-- Row 11, `8xy0` `LD Vx, Vy` (R143). -/
  | ldReg (x y : Reg)
  /-- Row 12, `8xy1` `OR Vx, Vy` (R145). -/
  | orReg (x y : Reg)
  /-- Row 13, `8xy2` `AND Vx, Vy` (R146). -/
  | andReg (x y : Reg)
  /-- Row 14, `8xy3` `XOR Vx, Vy` (R147). -/
  | xorReg (x y : Reg)
  /-- Row 15, `8xy4` `ADD Vx, Vy` (R148). -/
  | addReg (x y : Reg)
  /-- Row 16, `8xy5` `SUB Vx, Vy` (R149). -/
  | sub (x y : Reg)
  /-- Row 17, `8xy6` `SHR Vx` (R151); `y` is decoded and ignored (R74). -/
  | shr (x y : Reg)
  /-- Row 18, `8xy7` `SUBN Vx, Vy` (R150). -/
  | subn (x y : Reg)
  /-- Row 19, `8xyE` `SHL Vx` (R152); `y` is decoded and ignored (R74). -/
  | shl (x y : Reg)
  /-- Row 20, `9xy0` `SNE Vx, Vy` (R130). -/
  | sneReg (x y : Reg)
  /-- Row 21, `Annn` `LD I, nnn` (R160). -/
  | ldI (nnn : Addr12)
  /-- Row 22, `Bnnn` `JP V0, nnn` (R124). -/
  | jpV0 (nnn : Addr12)
  /-- Row 23, `Cxkk` `RND Vx, kk` (R155). -/
  | rnd (x : Reg) (kk : Byte)
  /-- Row 24, `Dxyn` `DRW Vx, Vy, n` (R182); `n` is a count 0..15 (R73). -/
  | drw (x y : Reg) (n : Fin 16)
  /-- Row 25, `Ex9E` `SKP Vx` (R190). -/
  | skp (x : Reg)
  /-- Row 26, `ExA1` `SKNP Vx` (R191). -/
  | sknp (x : Reg)
  /-- Row 27, `Fx07` `LD Vx, DT` (R197). -/
  | ldXDT (x : Reg)
  /-- Row 28, `Fx0A` `LD Vx, K` (R195). -/
  | ldXK (x : Reg)
  /-- Row 29, `Fx15` `LD DT, Vx` (R198). -/
  | ldDTX (x : Reg)
  /-- Row 30, `Fx18` `LD ST, Vx` (R199). -/
  | ldSTX (x : Reg)
  /-- Row 31, `Fx1E` `ADD I, Vx` (R161). -/
  | addI (x : Reg)
  /-- Row 32, `Fx29` `LD F, Vx` (R162). -/
  | ldF (x : Reg)
  /-- Row 33, `Fx33` `LD B, Vx` (R165). -/
  | ldB (x : Reg)
  /-- Row 34, `Fx55` `LD [I], Vx` (R166). -/
  | ldMemX (x : Reg)
  /-- Row 35, `Fx65` `LD Vx, [I]` (R167). -/
  | ldXMem (x : Reg)
deriving DecidableEq, Repr

end Sys2Proof
end

