-- ==== Sys2Proof/WellFormed.lean ====
section
/-! DEFINITION. Which terms of Instr stand for a word of the machine.

The fields' ranges are in their types. What is left is the overlap of R76: the words 0x00E0 and 0x00EE
match the `0nnn` row as well and belong to CLS and RET (R77), so no `SYS` term carries those addresses. -/

namespace Sys2Proof

/-- The `nnn` of the word of CLS, which takes priority over `SYS` (R77). -/
def clsAddr : Addr12 := 0x0E0

/-- The `nnn` of the word of RET, which takes priority over `SYS` (R77). -/
def retAddr : Addr12 := 0x0EE

/-- An instruction is well formed when some word decodes to it (R76, R77). -/
def Instr.wellFormed : Instr → Bool
  | .sys nnn => nnn != clsAddr && nnn != retAddr
  | .cls | .ret | .jp _ | .call _ | .seImm _ _ | .sneImm _ _ | .seReg _ _ | .ldImm _ _ | .addImm _ _
  | .ldReg _ _ | .orReg _ _ | .andReg _ _ | .xorReg _ _ | .addReg _ _ | .sub _ _ | .shr _ _ | .subn _ _
  | .shl _ _ | .sneReg _ _ | .ldI _ | .jpV0 _ | .rnd _ _ | .drw _ _ _ | .skp _ | .sknp _ | .ldXDT _
  | .ldXK _ | .ldDTX _ | .ldSTX _ | .addI _ | .ldF _ | .ldB _ | .ldMemX _ | .ldXMem _ => true

end Sys2Proof
end

