-- ==== Sys2Proof/Decode.lean ====
section
/-! DEFINITION. Words to instructions and back: the fields of R71, the decoder of R77, the encoder, the opcode
table of R76 (30_encoding.md). The bit patterns are PRESUMED by the spec itself (its G1, G2, D3), log entry 8. -/

namespace Sys2Proof

/-! ## Byte order (R55) -/

/-- The big-endian word of two bytes, the first at the lower address (R55, R70). -/
def wordOfBytes (hi lo : Byte) : Word := hi ++ lo

/-- The byte a word has at the lower address: `w[15:8]` (R55). -/
def highByte (w : Word) : Byte := w.extractLsb' 8 8

/-- The byte a word has at the higher address: `w[7:0]` (R55). -/
def lowByte (w : Word) : Byte := w.extractLsb' 0 8

/-! ## Fields (R71) -/

/-- `family = w[15:12]`. -/
def fieldFamily (w : Word) : Fin 16 := (w.extractLsb' 12 4).toFin

/-- `x = w[11:8]`. -/
def fieldX (w : Word) : Reg := (w.extractLsb' 8 4).toFin

/-- `y = w[7:4]`. -/
def fieldY (w : Word) : Reg := (w.extractLsb' 4 4).toFin

/-- `n = w[3:0]`. -/
def fieldN (w : Word) : Fin 16 := (w.extractLsb' 0 4).toFin

/-- `kk = w[7:0]`. -/
def fieldKK (w : Word) : Byte := w.extractLsb' 0 8

/-- `nnn = w[11:0]`. -/
def fieldNNN (w : Word) : Addr12 := w.extractLsb' 0 12

/-! ## The decoder (R77) -/

/-- Why the decoder gives no instruction: the classes of R78 that decode to no operation (the class `0nnn`
decodes to SYS), and an input that is no whole word. -/
inductive DecodeReject where
  /-- `5xyn` with `n` not 0. -/
  | family5LowNibble
  /-- `8xyn` with `n` in 8, 9, A, B, C, D, F. -/
  | family8Discriminator
  /-- `9xyn` with `n` not 0. -/
  | family9LowNibble
  /-- `Exkk` with `kk` not 9E or A1. -/
  | familyEDiscriminator
  /-- `Fxkk` with `kk` not one of the nine of R77. -/
  | familyFDiscriminator
  /-- Fewer than two bytes are given. The fetch never raises it: it always reads two bytes (R101). -/
  | truncated
deriving DecidableEq, Repr

/-- Family 0x0: the exact words of CLS and RET first, then the reserved class (R77). -/
def decodeFamily0 (w : Word) : Instr :=
  if w = 0x00E0 then .cls else if w = 0x00EE then .ret else .sys (fieldNNN w)

/-- Family 0x8, dispatched on `n` (R77). -/
def decodeFamily8 (w : Word) : Except DecodeReject Instr :=
  match (fieldN w).val with
  | 0x0 => .ok (.ldReg (fieldX w) (fieldY w))
  | 0x1 => .ok (.orReg (fieldX w) (fieldY w))
  | 0x2 => .ok (.andReg (fieldX w) (fieldY w))
  | 0x3 => .ok (.xorReg (fieldX w) (fieldY w))
  | 0x4 => .ok (.addReg (fieldX w) (fieldY w))
  | 0x5 => .ok (.sub (fieldX w) (fieldY w))
  | 0x6 => .ok (.shr (fieldX w) (fieldY w))
  | 0x7 => .ok (.subn (fieldX w) (fieldY w))
  | 0xE => .ok (.shl (fieldX w) (fieldY w))
  | _ => .error .family8Discriminator

/-- Family 0xE, dispatched on `kk` (R77). -/
def decodeFamilyE (w : Word) : Except DecodeReject Instr :=
  match (fieldKK w).toNat with
  | 0x9E => .ok (.skp (fieldX w))
  | 0xA1 => .ok (.sknp (fieldX w))
  | _ => .error .familyEDiscriminator

/-- Family 0xF, dispatched on `kk` (R77). -/
def decodeFamilyF (w : Word) : Except DecodeReject Instr :=
  match (fieldKK w).toNat with
  | 0x07 => .ok (.ldXDT (fieldX w))
  | 0x0A => .ok (.ldXK (fieldX w))
  | 0x15 => .ok (.ldDTX (fieldX w))
  | 0x18 => .ok (.ldSTX (fieldX w))
  | 0x1E => .ok (.addI (fieldX w))
  | 0x29 => .ok (.ldF (fieldX w))
  | 0x33 => .ok (.ldB (fieldX w))
  | 0x55 => .ok (.ldMemX (fieldX w))
  | 0x65 => .ok (.ldXMem (fieldX w))
  | _ => .error .familyFDiscriminator

/-- `decode(w)`, total on all 65536 words (R77). The last arm is family 0xF, the only one left. -/
def decode (w : Word) : Except DecodeReject Instr :=
  match (fieldFamily w).val with
  | 0x0 => .ok (decodeFamily0 w)
  | 0x1 => .ok (.jp (fieldNNN w))
  | 0x2 => .ok (.call (fieldNNN w))
  | 0x3 => .ok (.seImm (fieldX w) (fieldKK w))
  | 0x4 => .ok (.sneImm (fieldX w) (fieldKK w))
  | 0x5 => if fieldN w = 0 then .ok (.seReg (fieldX w) (fieldY w)) else .error .family5LowNibble
  | 0x6 => .ok (.ldImm (fieldX w) (fieldKK w))
  | 0x7 => .ok (.addImm (fieldX w) (fieldKK w))
  | 0x8 => decodeFamily8 w
  | 0x9 => if fieldN w = 0 then .ok (.sneReg (fieldX w) (fieldY w)) else .error .family9LowNibble
  | 0xA => .ok (.ldI (fieldNNN w))
  | 0xB => .ok (.jpV0 (fieldNNN w))
  | 0xC => .ok (.rnd (fieldX w) (fieldKK w))
  | 0xD => .ok (.drw (fieldX w) (fieldY w) (fieldN w))
  | 0xE => decodeFamilyE w
  | _ => decodeFamilyF w

/-- The decoder on bytes as they lie in memory: one instruction and the bytes after it (R55, R70). -/
def decodeBytes : List Byte → Except DecodeReject (Instr × List Byte)
  | hi :: lo :: rest => (decode (wordOfBytes hi lo)).map fun i => (i, rest)
  | _ => .error .truncated

/-! ## The encoder -/

/-- A word of format NNN: family and address (R71). -/
def packNNN (family : Fin 16) (nnn : Addr12) : Word := BitVec.ofNat 16 (family.val * 4096 + nnn.toNat)

/-- A word of format XKK or X: family, register, low byte (R71). -/
def packXKK (family : Fin 16) (x : Reg) (kk : Byte) : Word :=
  BitVec.ofNat 16 (family.val * 4096 + x.val * 256 + kk.toNat)

/-- A word of format XY, XY_ or XYN: family, two registers, low nibble (R71). -/
def packXYN (family : Fin 16) (x y : Reg) (n : Fin 16) : Word :=
  BitVec.ofNat 16 (family.val * 4096 + x.val * 256 + y.val * 16 + n.val)

/-- The word of a well-formed instruction (R76). -/
def encode : Instr → Word
  | .cls => 0x00E0
  | .ret => 0x00EE
  | .sys nnn => packNNN 0x0 nnn
  | .jp nnn => packNNN 0x1 nnn
  | .call nnn => packNNN 0x2 nnn
  | .seImm x kk => packXKK 0x3 x kk
  | .sneImm x kk => packXKK 0x4 x kk
  | .seReg x y => packXYN 0x5 x y 0x0
  | .ldImm x kk => packXKK 0x6 x kk
  | .addImm x kk => packXKK 0x7 x kk
  | .ldReg x y => packXYN 0x8 x y 0x0
  | .orReg x y => packXYN 0x8 x y 0x1
  | .andReg x y => packXYN 0x8 x y 0x2
  | .xorReg x y => packXYN 0x8 x y 0x3
  | .addReg x y => packXYN 0x8 x y 0x4
  | .sub x y => packXYN 0x8 x y 0x5
  | .shr x y => packXYN 0x8 x y 0x6
  | .subn x y => packXYN 0x8 x y 0x7
  | .shl x y => packXYN 0x8 x y 0xE
  | .sneReg x y => packXYN 0x9 x y 0x0
  | .ldI nnn => packNNN 0xA nnn
  | .jpV0 nnn => packNNN 0xB nnn
  | .rnd x kk => packXKK 0xC x kk
  | .drw x y n => packXYN 0xD x y n
  | .skp x => packXKK 0xE x 0x9E
  | .sknp x => packXKK 0xE x 0xA1
  | .ldXDT x => packXKK 0xF x 0x07
  | .ldXK x => packXKK 0xF x 0x0A
  | .ldDTX x => packXKK 0xF x 0x15
  | .ldSTX x => packXKK 0xF x 0x18
  | .addI x => packXKK 0xF x 0x1E
  | .ldF x => packXKK 0xF x 0x29
  | .ldB x => packXKK 0xF x 0x33
  | .ldMemX x => packXKK 0xF x 0x55
  | .ldXMem x => packXKK 0xF x 0x65

/-- The bytes of a well-formed instruction as they lie in memory (R55). -/
def encodeBytes (i : Instr) : List Byte := [highByte (encode i), lowByte (encode i)]

/-! ## The opcode table (R76) -/

/-- A row of the opcode table of R76. -/
structure OpcodeRow where
  mnemonic : String
  matchBits : Word
  mask : Word
deriving DecidableEq, Repr

/-- A word matches a row when `(w & mask) == match` (R76). -/
def OpcodeRow.fits (r : OpcodeRow) (w : Word) : Bool := w &&& r.mask == r.matchBits

/-- The row of an instruction: mnemonic (as spec/opcode_table.json spells it), match and mask (R76). -/
def Instr.row : Instr → OpcodeRow
  | .cls => ⟨"CLS", 0x00E0, 0xFFFF⟩
  | .ret => ⟨"RET", 0x00EE, 0xFFFF⟩
  | .sys _ => ⟨"SYS_nnn", 0x0000, 0xF000⟩
  | .jp _ => ⟨"JP_nnn", 0x1000, 0xF000⟩
  | .call _ => ⟨"CALL_nnn", 0x2000, 0xF000⟩
  | .seImm _ _ => ⟨"SE_Vx__kk", 0x3000, 0xF000⟩
  | .sneImm _ _ => ⟨"SNE_Vx__kk", 0x4000, 0xF000⟩
  | .seReg _ _ => ⟨"SE_Vx__Vy", 0x5000, 0xF00F⟩
  | .ldImm _ _ => ⟨"LD_Vx__kk", 0x6000, 0xF000⟩
  | .addImm _ _ => ⟨"ADD_Vx__kk", 0x7000, 0xF000⟩
  | .ldReg _ _ => ⟨"LD_Vx__Vy", 0x8000, 0xF00F⟩
  | .orReg _ _ => ⟨"OR_Vx__Vy", 0x8001, 0xF00F⟩
  | .andReg _ _ => ⟨"AND_Vx__Vy", 0x8002, 0xF00F⟩
  | .xorReg _ _ => ⟨"XOR_Vx__Vy", 0x8003, 0xF00F⟩
  | .addReg _ _ => ⟨"ADD_Vx__Vy", 0x8004, 0xF00F⟩
  | .sub _ _ => ⟨"SUB_Vx__Vy", 0x8005, 0xF00F⟩
  | .shr _ _ => ⟨"SHR_Vx", 0x8006, 0xF00F⟩
  | .subn _ _ => ⟨"SUBN_Vx__Vy", 0x8007, 0xF00F⟩
  | .shl _ _ => ⟨"SHL_Vx", 0x800E, 0xF00F⟩
  | .sneReg _ _ => ⟨"SNE_Vx__Vy", 0x9000, 0xF00F⟩
  | .ldI _ => ⟨"LD_I__nnn", 0xA000, 0xF000⟩
  | .jpV0 _ => ⟨"JP_V0__nnn", 0xB000, 0xF000⟩
  | .rnd _ _ => ⟨"RND_Vx__kk", 0xC000, 0xF000⟩
  | .drw _ _ _ => ⟨"DRW_Vx__Vy__n", 0xD000, 0xF000⟩
  | .skp _ => ⟨"SKP_Vx", 0xE09E, 0xF0FF⟩
  | .sknp _ => ⟨"SKNP_Vx", 0xE0A1, 0xF0FF⟩
  | .ldXDT _ => ⟨"LD_Vx__DT", 0xF007, 0xF0FF⟩
  | .ldXK _ => ⟨"LD_Vx__K", 0xF00A, 0xF0FF⟩
  | .ldDTX _ => ⟨"LD_DT__Vx", 0xF015, 0xF0FF⟩
  | .ldSTX _ => ⟨"LD_ST__Vx", 0xF018, 0xF0FF⟩
  | .addI _ => ⟨"ADD_I__Vx", 0xF01E, 0xF0FF⟩
  | .ldF _ => ⟨"LD_F__Vx", 0xF029, 0xF0FF⟩
  | .ldB _ => ⟨"LD_B__Vx", 0xF033, 0xF0FF⟩
  | .ldMemX _ => ⟨"LD__I___Vx", 0xF055, 0xF0FF⟩
  | .ldXMem _ => ⟨"LD_Vx___I", 0xF065, 0xF0FF⟩

/-! ## The table's words (for the host's check) -/

/-- What the decoder reads from an instruction whose bits are `w`, numbered as spec/opcode_table.json
numbers them: one word, so bits 15..0, stored high byte first (R55). -/
def decodeTableWord (nbits w : Nat) : Option Instr :=
  let word : Word := BitVec.ofNat 16 (w % 2 ^ nbits)
  match decodeBytes [highByte word, lowByte word] with
  | .ok (i, _) => some i
  | .error _ => none

end Sys2Proof
end

