-- ==== Sys2Proof/Config.lean ====
section
/-! DEFINITION. The parameters of R6 (00_scope.md) at the values this spec takes, and the free values. -/

namespace Sys2Proof.Config

/-- Who wins when the destination of a flag-writing instruction is VF (R141, D6). -/
inductive VfOrder where
  /-- The destination is written first and VF last: the flag survives. -/
  | flagLast
  /-- The alternative of D6: VF is written first and the result last. -/
  | destLast
deriving DecidableEq, Repr

/-- What `LD F, Vx` does with a digit above 0xF (R162, D11). -/
inductive FontDigitOor where
  /-- The same formula, `I <- FONT_BASE + 5 * digit`. -/
  | literal
  /-- The alternative of D11: `I` takes any 16-bit value. -/
  | draw
deriving DecidableEq, Repr

/-- `MEM_SIZE`: memory bytes (R6, R35). -/
abbrev memSize : Nat := 4096

/-- `STACK_DEPTH`: call-stack entries (R6, R27). -/
abbrev stackDepth : Nat := 16

/-- `FB_W`: framebuffer columns (R6, R34). PRESUMED by the spec's D1, log entry 6. -/
abbrev fbW : Nat := 64

/-- `FB_H`: framebuffer rows (R6, R34). PRESUMED by the spec's D1, log entry 6. -/
abbrev fbH : Nat := 32

/-- `SPRITE_W`: sprite columns (R6). -/
abbrev spriteW : Nat := 8

/-- `ORIGIN`: where a program is loaded and `pc` starts (R6, R39). -/
def origin : Word := 0x200

/-- `FONT_BASE`: the first font byte (R6, R38). -/
def fontBase : Word := 0x000

/-- `GLYPH_BYTES`: bytes per glyph (R6, R38). -/
def glyphBytes : Nat := 5

/-- `FONT`: the 80 font bytes, glyph by glyph (R38). PRESUMED by the spec's D2, log entry 7. -/
def font : List Byte :=
  [0xF0, 0x90, 0x90, 0x90, 0xF0] ++ [0x20, 0x60, 0x20, 0x20, 0x70] ++
  [0xF0, 0x10, 0xF0, 0x80, 0xF0] ++ [0xF0, 0x10, 0xF0, 0x10, 0xF0] ++
  [0x90, 0x90, 0xF0, 0x10, 0x10] ++ [0xF0, 0x80, 0xF0, 0x10, 0xF0] ++
  [0xF0, 0x80, 0xF0, 0x90, 0xF0] ++ [0xF0, 0x10, 0x20, 0x40, 0x40] ++
  [0xF0, 0x90, 0xF0, 0x90, 0xF0] ++ [0xF0, 0x90, 0xF0, 0x10, 0xF0] ++
  [0xF0, 0x90, 0xF0, 0x90, 0x90] ++ [0xE0, 0x90, 0xE0, 0x90, 0xE0] ++
  [0xF0, 0x80, 0x80, 0x80, 0xF0] ++ [0xE0, 0x90, 0x90, 0x90, 0xE0] ++
  [0xF0, 0x80, 0xF0, 0x80, 0xF0] ++ [0xF0, 0x80, 0xF0, 0x80, 0x80]

/-- `VF_ORDER`, at the spec's default (R6, R141). DESIGN CHOICE of the spec's D6, log entry 4. -/
def vfOrder : VfOrder := .flagLast

/-- `FONT_DIGIT_OOR`, at the spec's default (R6, R162). DESIGN CHOICE of the spec's D11, log entry 5. -/
def fontDigitOor : FontDigitOor := .literal

/-- FREE VALUE: the byte that draw number `k` of `RandomByte()` answers (R13, R155). Nothing constrains it.
Log entry 1. -/
opaque randomByte : Nat → Byte

/-- FREE VALUE: the index that draw number `k` gives `LD F, Vx` under the alternative
`FONT_DIGIT_OOR = draw` (U3, D11). Log entries 1 and 5. -/
opaque drawnIndex : Nat → Word

end Sys2Proof.Config
end

