-- ==== Sys2Proof/Machine/Flags.lean ====
section
/-! DEFINITION. Results and VF values of the flag-writing instructions (R140, R148 to R152 in 42_alu.md). The
arithmetic is exact on natural numbers and narrowed at the end. -/

namespace Sys2Proof.Machine

/-- A truth value as the byte a flag holds: `(c ? 1 : 0)`. -/
def flagByte (c : Bool) : Byte := if c then 1 else 0

/-- `trunc_8(a + b)` (R140, R144, R148). -/
def sumByte (a b : Byte) : Byte := BitVec.ofNat 8 (a.toNat + b.toNat)

/-- The carry of `ADD Vx, Vy`: 1 if the 9-bit sum is above 255 (R148). -/
def carryFlag (a b : Byte) : Byte := flagByte (decide (a.toNat + b.toNat > 255))

/-- `trunc_8(a - b + 256)` (R140, R149, R150). -/
def differenceByte (a b : Byte) : Byte := BitVec.ofNat 8 (a.toNat + 256 - b.toNat)

/-- The flag of a subtraction `a - b`: 1 if `a > b`, strictly; equal operands give 0 (R140, R149, R150). -/
def greaterFlag (a b : Byte) : Byte := flagByte (decide (a.toNat > b.toNat))

/-- `a >> 1`, logical (R151). -/
def shiftRightByte (a : Byte) : Byte := a >>> 1

/-- The bit `SHR` shifts out: the low bit before the shift (R151). -/
def lowBitFlag (a : Byte) : Byte := a &&& 1

/-- `trunc_8(a << 1)` (R152). -/
def shiftLeftByte (a : Byte) : Byte := a <<< 1

/-- The bit `SHL` shifts out: the high bit before the shift (R152). -/
def highBitFlag (a : Byte) : Byte := (a >>> 7) &&& 1

end Sys2Proof.Machine
end

