-- ==== Sys2Proof/Machine/Memory.lean ====
section
/-! DEFINITION. Memory as plain data: the bytes that differ from the reset contents, by rising address
(R35, R39 in 10_state.md; R50, R53 in 20_memory.md). Log entry 9. -/

namespace Sys2Proof.Machine

/-- Memory: the listed bytes, in the canonical form `Memory.wf`. -/
abbrev Memory := List Host.Cell

/-- What an address reads as where memory lists nothing: its reset contents, the FONT bytes and then
zeros (R38, R39). -/
def resetByte (a : Nat) : Byte := Config.font.getD a 0

/-- The address that an access at `a` uses: `a & 0xFFF` (R53). -/
def reduceAddr (a : Word) : Nat := (a &&& 0xFFF).toNat

/-- The byte at a reduced address. -/
def Memory.read : Memory → Nat → Byte
  | [], a => resetByte a
  | (k, b) :: m, a => if k = a then b else Memory.read m a

/-- Memory after the byte at a reduced address is replaced. Writing the reset contents takes the entry
out, so that equal memories are equal lists. -/
def Memory.write : Memory → Nat → Byte → Memory
  | [], a, b => if b = resetByte a then [] else [(a, b)]
  | (k, c) :: m, a, b =>
    if a < k then (if b = resetByte a then (k, c) :: m else (a, b) :: (k, c) :: m)
    else if a = k then (if b = resetByte a then m else (a, b) :: m)
    else (k, c) :: Memory.write m a b

/-- The canonical form: addresses strictly rising, each inside memory (R35), and no entry equal to what an
unlisted address reads as. -/
abbrev Memory.wf (m : Memory) : Prop :=
  m.Pairwise (fun c d => c.1 < d.1) ∧ ∀ c ∈ m, c.1 < Config.memSize ∧ c.2 ≠ resetByte c.1

end Sys2Proof.Machine
end

