-- ==== Sys2Proof/Machine/State.lean ====
section
/-! DEFINITION. The machine's state, its value after reset, and how a step can stop (10_state.md;
R210 in 60_exceptions.md). -/

namespace Sys2Proof.Machine

/-- The framebuffer: `fb[x][y]`, column then row, `true` is "on" (R34). -/
abbrev Framebuffer := Vector (Vector Bool Config.fbH) Config.fbW

/-- The keypad latch, `true` is pressed (R33). -/
abbrev Keypad := Vector Bool 16

/-- `MachineState` (R20 to R37), and the model's own counter of free values. -/
structure State where
  /-- General registers V0..VF; VF is also the flag register (R20, R22). -/
  V : Vector Byte 16
  /-- Program counter (R23). -/
  pc : Word
  /-- Index register (R26). -/
  I : Word
  /-- Stack pointer, 0..16: the number of entries in use (R28). Log entry 12. -/
  sp : Fin (Config.stackDepth + 1)
  /-- Call stack, not part of memory (R27). -/
  stack : Vector Word Config.stackDepth
  /-- Delay timer (R30). -/
  DT : Byte
  /-- Sound timer (R31). -/
  ST : Byte
  /-- Keypad latch (R33). -/
  key : Keypad
  /-- Framebuffer (R34). -/
  fb : Framebuffer
  /-- Memory (R35). -/
  mem : Memory
  /-- The word fetched last (R36). -/
  currentInstruction : Word
  /-- THE MODEL'S OWN: how many free values have been drawn (R13, R155). Log entry 1. -/
  draws : Nat
deriving DecidableEq, Repr

/-- The state after `reset()` and after construction (R39, R240, R241). `draws` is 0 by DESIGN CHOICE, log
entry 1. -/
def State.reset : State where
  V := Vector.replicate 16 0
  pc := Config.origin
  I := 0
  sp := 0
  stack := Vector.replicate Config.stackDepth 0
  DT := 0
  ST := 0
  key := Vector.replicate 16 false
  fb := Vector.replicate Config.fbW (Vector.replicate Config.fbH false)
  mem := []
  currentInstruction := 0
  draws := 0

/-- The error kinds of R210. An error is a result given to the host (R217); each constructor carries the
state the error leaves (R12, R108, R214), from which a host that goes on steps again (R219). Log entry 2.
All four are safe: they stop where the spec says that the machine reports an error. -/
inductive Fault where
  /-- `DecodeError(w)`: raised by a step whose word decodes to no operation, and by SYS (R211, R121). Safe. -/
  | decodeError (w : Word) (left : State)
  /-- `StackOverflow`: raised by CALL with `sp = 16` (R212, R125). Safe. -/
  | stackOverflow (left : State)
  /-- `StackUnderflow`: raised by RET with `sp = 0` (R213, R122). Safe. -/
  | stackUnderflow (left : State)
  /-- `ImageTooLarge`: raised by the host's `load` only, never by a step (R214, R244). Safe. -/
  | imageTooLarge (left : State)
deriving DecidableEq, Repr

/-- Why the model would give an instruction no meaning. No instruction of this model is refused. -/
inductive Refusal where
  /-- Raised by an arm of exec whose instruction has no meaning yet; there is no such arm. Safe. -/
  | notModelled (mnemonic : String)
deriving DecidableEq, Repr

end Sys2Proof.Machine
end

