-- ==== Sys2Proof/Machine/Operands.lean ====
section
/-! DEFINITION. Operand forms: registers, immediates, addresses, key indices, screen coordinates (R73 in
30_encoding.md and the rules named below). All are unsigned (R8). -/

namespace Sys2Proof.Machine

/-- The VF register number (R22). -/
def vfReg : Reg := 15

/-- `V[x]` (R9, R20). -/
def State.reg (s : State) (x : Reg) : Byte := s.V[x]

/-- `zext_16(nnn)` (R73). -/
def zextAddr (nnn : Addr12) : Word := nnn.zeroExtend 16

/-- `zext_16(V[x])` (R73, R161). -/
def zextByte (b : Byte) : Word := b.zeroExtend 16

/-- The target of `JP V0, nnn`: `zext_16(V[0]) + zext_16(nnn)`, not reduced (R124). -/
def offsetTarget (s : State) (nnn : Addr12) : Word := zextByte (s.reg 0) + zextAddr nnn

/-- The address of byte `k` of an access through `I`, before its reduction (R163, R56). -/
def indexAddr (s : State) (k : Nat) : Word := s.I + BitVec.ofNat 16 k

/-- `FONT_BASE + 5 * zext_16(d)` (R162). -/
def glyphAddr (d : Byte) : Word := Config.fontBase + BitVec.ofNat 16 (Config.glyphBytes * d.toNat)

/-- The key that SKP and SKNP test: `V[x] & 0xF` (R192). -/
def keyIndex (b : Byte) : Fin 16 := Fin.ofNat 16 (b &&& 0xF).toNat

/-- The lowest pressed key, if any key is pressed (R195). -/
def lowestKey (key : Keypad) : Option (Fin 16) := (List.finRange 16).find? fun k => key[k]

/-- `(x0 + col) mod FB_W` (R181). -/
def cellX (x0 : Byte) (col : Nat) : Fin Config.fbW := ⟨(x0.toNat + col) % Config.fbW, Nat.mod_lt _ (by decide)⟩

/-- `(y0 + row) mod FB_H` (R181). -/
def cellY (y0 : Byte) (row : Nat) : Fin Config.fbH := ⟨(y0.toNat + row) % Config.fbH, Nat.mod_lt _ (by decide)⟩

/-- The bit of sprite byte `b` for column `col`, most significant first: `(b >> (7 - col)) & 1` (R182). -/
def spriteBit (b : Byte) (col : Nat) : Bool := b.getLsbD (Config.spriteW - 1 - col)

/-- The three decimal digits of a byte, hundreds first (R165). -/
def bcdDigits (v : Byte) : List Byte :=
  [BitVec.ofNat 8 (v.toNat / 100), BitVec.ofNat 8 (v.toNat / 10 % 10), BitVec.ofNat 8 (v.toNat % 10)]

end Sys2Proof.Machine
end

