-- ==== Sys2Proof/Machine/Ops.lean ====
section
/-! DEFINITION. The named operations that the meanings and the step are built from: registers, memory, fetch,
advance, tick, stack, skips, draws, the framebuffer, and raising an error. -/

namespace Sys2Proof.Machine

/-! ## Registers -/

/-- `V[x] <- b` (R9). No register is hardwired (R20). -/
def State.setReg (s : State) (x : Reg) (b : Byte) : State := { s with V := s.V.set x.val b x.isLt }

/-- `I <- w` (R26). -/
def State.setI (s : State) (w : Word) : State := { s with I := w }

/-- `pc <- w` (R24). -/
def State.setPc (s : State) (w : Word) : State := { s with pc := w }

/-- The destination and VF of a flag-writing instruction, in the order of `VF_ORDER` (R141, D6). -/
def State.setRegAndFlag (s : State) (order : Config.VfOrder) (x : Reg) (result flag : Byte) : State :=
  match order with
  | .flagLast => (s.setReg x result).setReg vfReg flag
  | .destLast => (s.setReg vfReg flag).setReg x result

/-! ## Memory (R53 to R60) -/

/-- `MemRead(a, 1)`: the address is reduced first (R53). -/
def State.readByte (s : State) (a : Word) : Byte := s.mem.read (reduceAddr a)

/-- `MemWrite(a, 1, b)`: the address is reduced first (R53, R54). -/
def State.writeByte (s : State) (a : Word) (b : Byte) : State := { s with mem := s.mem.write (reduceAddr a) b }

/-- Bytes written at `a`, `a + 1`, …, in ascending order, each address reduced on its own (R53, R59, R163). -/
def State.storeBytes (s : State) (a : Word) : List Byte → State
  | [] => s
  | b :: bs => State.storeBytes (s.writeByte a b) (a + 1) bs

/-- Registers `V[0]`..`V[x]` loaded from memory at `I`, the others kept (R167). -/
def State.loadRegs (s : State) (x : Reg) : State :=
  { s with V := Vector.ofFn fun k : Fin 16 => if k ≤ x then s.readByte (indexAddr s k.val) else s.V[k] }

/-! ## The phases of a step around execute (R100) -/

/-- Fetch: the big-endian word at `pc` (R101, R55). -/
def fetchWord (s : State) : Word := wordOfBytes (s.readByte s.pc) (s.readByte (s.pc + 1))

/-- Fetch and advance: `currentInstruction <- w`, `pc <- trunc_16(pc + 2)` (R101, R102). -/
def State.advance (s : State) (w : Word) : State := { s with currentInstruction := w, pc := s.pc + 2 }

/-- One timer's tick: down by 1 while above 0 (R32, R105). -/
def tickTimer (t : Byte) : Byte := if t = 0 then 0 else t - 1

/-- Tick: both timers, each on its own (R105). -/
def State.tick (s : State) : State := { s with DT := tickTimer s.DT, ST := tickTimer s.ST }

/-! ## Errors (R108, R210, R217) -/

/-- `raise E(info)`: the step ends with the error and the state `s`, the one after the advance: nothing of the
execute phase is kept, nothing is saved and nothing is entered (R9, R108, R217). -/
def raise (e : State → Fault) (s : State) : Host.Outcome State Fault Refusal := .fault (e s)

/-- The state an error leaves (R108, R214). -/
def Fault.left : Fault → State
  | .decodeError _ t => t
  | .stackOverflow t => t
  | .stackUnderflow t => t
  | .imageTooLarge t => t

/-- The numeric code of an error kind (R210, the spec's D16). -/
def Fault.code : Fault → Nat
  | .decodeError _ _ => 1
  | .stackOverflow _ => 2
  | .stackUnderflow _ => 3
  | .imageTooLarge _ => 4

/-- Where the machine stands when a step has ended, with or without an error: a host that goes on after an
error steps again from here (R218, R219). There is no return instruction. -/
def stateAfter (s : State) : Host.Outcome State Fault Refusal → State
  | .next t => t
  | .fault f => f.left
  | .refused _ => s

/-! ## Control transfer -/

/-- `skip_if(c)` (R126). -/
def State.skipIf (s : State) (c : Bool) : State := if c then s.setPc (s.pc + 2) else s

/-- CALL's push of the return address, or nothing when the stack is full (R125). -/
def State.pushReturn (s : State) : Option State :=
  if h : s.sp.val < Config.stackDepth then
    some { s with stack := s.stack.set s.sp.val s.pc h, sp := ⟨s.sp.val + 1, Nat.succ_lt_succ h⟩ }
  else none

/-- RET's pop of a return address into `pc`, or nothing when the stack is empty. The popped entry is not
cleared (R122, R29). -/
def State.popReturn (s : State) : Option State :=
  if h : s.sp.val = 0 then none
  else
    have hk : s.sp.val - 1 < Config.stackDepth := by have := s.sp.isLt; omega
    some { s with sp := ⟨s.sp.val - 1, Nat.lt_succ_of_lt hk⟩, pc := s.stack[s.sp.val - 1]'hk }

/-! ## Free values (R13, R155) -/

/-- The state after one free value is drawn. -/
def State.drawn (s : State) : State := { s with draws := s.draws + 1 }

/-- `I` after `LD F` of digit `d`: the formula, or for a digit above 0xF under `FONT_DIGIT_OOR = draw` a free
value (R162, D11). -/
def State.pointAtGlyph (s : State) (oor : Config.FontDigitOor) (d : Byte) : State :=
  match oor with
  | .literal => s.setI (glyphAddr d)
  | .draw => if d.toNat ≤ 0xF then s.setI (glyphAddr d) else (s.setI (Config.drawnIndex s.draws)).drawn

/-! ## Framebuffer (R180 to R182) -/

/-- `fb[cx][cy]` (R34). -/
def Framebuffer.cell (fb : Framebuffer) (cx : Fin Config.fbW) (cy : Fin Config.fbH) : Bool := fb[cx][cy]

/-- Every cell off (R180). -/
def blankScreen : Framebuffer := Vector.replicate Config.fbW (Vector.replicate Config.fbH false)

/-- One set sprite bit: the cell is toggled, and a cell that was on is a collision (R182). -/
def toggleCell (acc : Framebuffer × Bool) (cx : Fin Config.fbW) (cy : Fin Config.fbH) : Framebuffer × Bool :=
  (acc.1.set cx.val (acc.1[cx].set cy.val (!acc.1.cell cx cy) cy.isLt) cx.isLt, acc.2 || acc.1.cell cx cy)

/-- One sprite byte in screen row `cy`, column 0 first (R182). -/
def drawRow (x0 : Byte) (cy : Fin Config.fbH) (b : Byte) (acc : Framebuffer × Bool) : Framebuffer × Bool :=
  (List.range Config.spriteW).foldl
    (fun acc col => if spriteBit b col then toggleCell acc (cellX x0 col) cy else acc) acc

/-- Sprite bytes drawn from sprite row `row` down (R182). -/
def drawRows (x0 y0 : Byte) : Nat → List Byte → Framebuffer × Bool → Framebuffer × Bool
  | _, [], acc => acc
  | row, b :: bs, acc => drawRows x0 y0 (row + 1) bs (drawRow x0 (cellY y0 row) b acc)

/-- The `n` sprite bytes at `I` (R182). -/
def spriteBytes (s : State) (n : Nat) : List Byte := (List.range n).map fun row => s.readByte (indexAddr s row)

end Sys2Proof.Machine
end

