-- ==== Sys2Proof/Machine/Alu.lean ====
section
/-! DEFINITION. Register loads, ALU operations and RND (42_alu.md), as execute phases (R104). -/

namespace Sys2Proof.Machine

/-- `LD Vx, kk` (R142). -/
def execLdImm (x : Reg) (kk : Byte) (s : State) : Host.Outcome State Fault Refusal := .next (s.setReg x kk)

/-- `LD Vx, Vy` (R143). -/
def execLdReg (x y : Reg) (s : State) : Host.Outcome State Fault Refusal := .next (s.setReg x (s.reg y))

/-- `ADD Vx, kk`, no flag (R144). -/
def execAddImm (x : Reg) (kk : Byte) (s : State) : Host.Outcome State Fault Refusal :=
  .next (s.setReg x (sumByte (s.reg x) kk))

/-- `OR Vx, Vy`, no flag (R145). -/
def execOrReg (x y : Reg) (s : State) : Host.Outcome State Fault Refusal :=
  .next (s.setReg x (s.reg x ||| s.reg y))

/-- `AND Vx, Vy`, no flag (R146). -/
def execAndReg (x y : Reg) (s : State) : Host.Outcome State Fault Refusal :=
  .next (s.setReg x (s.reg x &&& s.reg y))

/-- `XOR Vx, Vy`, no flag (R147). -/
def execXorReg (x y : Reg) (s : State) : Host.Outcome State Fault Refusal :=
  .next (s.setReg x (s.reg x ^^^ s.reg y))

/-- `ADD Vx, Vy` (R148). -/
def execAddReg (x y : Reg) (s : State) : Host.Outcome State Fault Refusal :=
  .next (s.setRegAndFlag Config.vfOrder x (sumByte (s.reg x) (s.reg y)) (carryFlag (s.reg x) (s.reg y)))

/-- `SUB Vx, Vy` (R149). -/
def execSub (x y : Reg) (s : State) : Host.Outcome State Fault Refusal :=
  .next (s.setRegAndFlag Config.vfOrder x (differenceByte (s.reg x) (s.reg y)) (greaterFlag (s.reg x) (s.reg y)))

/-- `SUBN Vx, Vy` (R150). -/
def execSubn (x y : Reg) (s : State) : Host.Outcome State Fault Refusal :=
  .next (s.setRegAndFlag Config.vfOrder x (differenceByte (s.reg y) (s.reg x)) (greaterFlag (s.reg y) (s.reg x)))

/-- `SHR Vx`; `y` is not read (R151, R74). -/
def execShr (x : Reg) (s : State) : Host.Outcome State Fault Refusal :=
  .next (s.setRegAndFlag Config.vfOrder x (shiftRightByte (s.reg x)) (lowBitFlag (s.reg x)))

/-- `SHL Vx`; `y` is not read (R152, R74). -/
def execShl (x : Reg) (s : State) : Host.Outcome State Fault Refusal :=
  .next (s.setRegAndFlag Config.vfOrder x (shiftLeftByte (s.reg x)) (highBitFlag (s.reg x)))

/-- `RND Vx, kk`: a fresh free byte under the mask (R155). -/
def execRnd (x : Reg) (kk : Byte) (s : State) : Host.Outcome State Fault Refusal :=
  .next (s.setReg x (Config.randomByte s.draws &&& kk)).drawn

end Sys2Proof.Machine
end

