-- ==== Sys2Proof/Machine/ControlFlow.lean ====
section
/-! DEFINITION. SYS, RET, JP, JP V0, CALL and the skips on registers (41_control_flow.md). Each meaning is the
execute phase (R104): it is given the state after the advance, and `pc` is the fetch address + 2. -/

namespace Sys2Proof.Machine

/-- `SYS nnn`: always `DecodeError(w)`, where `w` is the word `0nnn` itself (R121). -/
def execSys (nnn : Addr12) (s : State) : Host.Outcome State Fault Refusal := raise (.decodeError (zextAddr nnn)) s

/-- `RET` (R122). -/
def execRet (s : State) : Host.Outcome State Fault Refusal :=
  match s.popReturn with
  | some t => .next t
  | none => raise .stackUnderflow s

/-- `JP nnn` (R123). -/
def execJp (nnn : Addr12) (s : State) : Host.Outcome State Fault Refusal := .next (s.setPc (zextAddr nnn))

/-- `JP V0, nnn` (R124). -/
def execJpV0 (nnn : Addr12) (s : State) : Host.Outcome State Fault Refusal := .next (s.setPc (offsetTarget s nnn))

/-- `CALL nnn` (R125). -/
def execCall (nnn : Addr12) (s : State) : Host.Outcome State Fault Refusal :=
  match s.pushReturn with
  | some t => .next (t.setPc (zextAddr nnn))
  | none => raise .stackOverflow s

/-- `SE Vx, kk` (R127). -/
def execSeImm (x : Reg) (kk : Byte) (s : State) : Host.Outcome State Fault Refusal :=
  .next (s.skipIf (s.reg x == kk))

/-- `SNE Vx, kk` (R128). -/
def execSneImm (x : Reg) (kk : Byte) (s : State) : Host.Outcome State Fault Refusal :=
  .next (s.skipIf (s.reg x != kk))

/-- `SE Vx, Vy` (R129). -/
def execSeReg (x y : Reg) (s : State) : Host.Outcome State Fault Refusal := .next (s.skipIf (s.reg x == s.reg y))

/-- `SNE Vx, Vy` (R130). -/
def execSneReg (x y : Reg) (s : State) : Host.Outcome State Fault Refusal := .next (s.skipIf (s.reg x != s.reg y))

end Sys2Proof.Machine
end

