-- ==== Sys2Proof/Machine/Display.lean ====
section
/-! DEFINITION. CLS and DRW (44_display.md), as execute phases (R104). -/

namespace Sys2Proof.Machine

/-- `CLS` (R180). -/
def execCls (s : State) : Host.Outcome State Fault Refusal := .next { s with fb := blankScreen }

/-- `DRW Vx, Vy, n`: the origin is read first and VF is written last (R182). -/
def execDrw (x y : Reg) (n : Fin 16) (s : State) : Host.Outcome State Fault Refusal :=
  let drawing := drawRows (s.reg x) (s.reg y) 0 (spriteBytes s n.val) (s.fb, false)
  .next (State.setReg { s with fb := drawing.1 } vfReg (flagByte drawing.2))

end Sys2Proof.Machine
end

