-- ==== Sys2Proof/Machine/IndexMemory.lean ====
section
/-! DEFINITION. The index register and memory transfer (43_index_memory.md), as execute phases (R104). None
changes `I` but LD I, ADD I and LD F (R163). -/

namespace Sys2Proof.Machine

/-- `LD I, nnn` (R160). -/
def execLdI (nnn : Addr12) (s : State) : Host.Outcome State Fault Refusal := .next (s.setI (zextAddr nnn))

/-- `ADD I, Vx`, no flag (R161). -/
def execAddI (x : Reg) (s : State) : Host.Outcome State Fault Refusal := .next (s.setI (s.I + zextByte (s.reg x)))

/-- `LD F, Vx` (R162). -/
def execLdF (x : Reg) (s : State) : Host.Outcome State Fault Refusal :=
  .next (s.pointAtGlyph Config.fontDigitOor (s.reg x))

/-- `LD B, Vx` (R165). -/
def execLdB (x : Reg) (s : State) : Host.Outcome State Fault Refusal :=
  .next (s.storeBytes s.I (bcdDigits (s.reg x)))

/-- `LD [I], Vx` (R166). -/
def execLdMemX (x : Reg) (s : State) : Host.Outcome State Fault Refusal :=
  .next (s.storeBytes s.I (s.V.toList.take (x.val + 1)))

/-- `LD Vx, [I]` (R167). -/
def execLdXMem (x : Reg) (s : State) : Host.Outcome State Fault Refusal := .next (s.loadRegs x)

end Sys2Proof.Machine
end

