-- ==== Sys2Proof/Machine/KeysTimers.lean ====
section
/-! DEFINITION. Key input and timers (45_keys_timers.md), as execute phases (R104): the tick of R105 follows in
the step. -/

namespace Sys2Proof.Machine

/-- `SKP Vx` (R190, R192). -/
def execSkp (x : Reg) (s : State) : Host.Outcome State Fault Refusal := .next (s.skipIf s.key[keyIndex (s.reg x)])

/-- `SKNP Vx` (R191, R192). -/
def execSknp (x : Reg) (s : State) : Host.Outcome State Fault Refusal :=
  .next (s.skipIf (!s.key[keyIndex (s.reg x)]))

/-- `LD Vx, K`: the lowest pressed key, or back to this instruction (R195, R196). -/
def execLdXK (x : Reg) (s : State) : Host.Outcome State Fault Refusal :=
  match lowestKey s.key with
  | some k => .next (s.setReg x (BitVec.ofNat 8 k.val))
  | none => .next (s.setPc (s.pc - 2))

/-- `LD Vx, DT` (R197). -/
def execLdXDT (x : Reg) (s : State) : Host.Outcome State Fault Refusal := .next (s.setReg x s.DT)

/-- `LD DT, Vx` (R198). -/
def execLdDTX (x : Reg) (s : State) : Host.Outcome State Fault Refusal := .next { s with DT := s.reg x }

/-- `LD ST, Vx` (R199). -/
def execLdSTX (x : Reg) (s : State) : Host.Outcome State Fault Refusal := .next { s with ST := s.reg x }

end Sys2Proof.Machine
end

