-- ==== Sys2Proof/Machine/Step.lean ====
section
/-! DEFINITION. `step()`: fetch, advance, decode, execute, tick (R100 in 40_step_cycle.md). -/

namespace Sys2Proof.Machine

/-- One step (R100). An error ends it with the state after the advance: no execute effect, no tick (R108). -/
def step (s : State) : Host.Outcome State Fault Refusal :=
  let w := fetchWord s
  let s1 := s.advance w
  match decode w with
  | .error _ => raise (.decodeError w) s1
  | .ok i =>
    match exec i s1 with
    | .next s2 => .next s2.tick
    | .fault f => .fault f
    | .refused r => .refused r

/-- `s` with the one-word instruction whose bits are `w` stored where the next step fetches: at `pc`, high
byte first (R55, R101). It stands for the host's load of a program (R243), log entry 10. -/
def State.withFetchWord (s : State) (nbits w : Nat) : State :=
  let word : Word := BitVec.ofNat 16 (w % 2 ^ nbits)
  s.storeBytes s.pc [highByte word, lowByte word]

end Sys2Proof.Machine
end

