-- ==== Sys2Proof/Machine/HostInterface.lean ====
section
/-! DEFINITION. What the host may do between two steps (R250 in 70_reset_and_hazards.md): reset, load, a keypad
write, a read. A run of the machine is a list of events, each a step or a host action (R12). -/

namespace Sys2Proof.Machine

/-- `reset()`: every piece of state to its reset value (R240). The random generator is not part of the state
and is not touched (R155): the model's counter of draws goes on. -/
def hostReset (s : State) : State := { State.reset with draws := s.draws }

/-- The longest image: 4096 - 0x200 bytes (R52, R243). -/
def maxImage : Nat := Config.memSize - Config.origin.toNat

/-- `load(bytes)`: the bytes at 0x200 upward, or `ImageTooLarge` with nothing changed (R243, R244, R245). -/
def load (bytes : List Byte) (s : State) : Host.Outcome State Fault Refusal :=
  if bytes.length > maxImage then raise .imageTooLarge s else .next (s.storeBytes Config.origin bytes)

/-- The host's keypad write: all 16 entries at once (R226, the spec's D27; log entry 3). -/
def writeKeys (keys : Keypad) (s : State) : State := { s with key := keys }

/-- The host's framebuffer read (R224). -/
def readFramebuffer (s : State) : Framebuffer := s.fb

/-- A host action (R250). The read answers a copy and changes nothing. -/
inductive HostAction where
  | reset
  | load (bytes : List Byte)
  | writeKeys (keys : Keypad)
  | read
deriving DecidableEq, Repr

/-- The state after a host action (R250). A load that is too large leaves the state as it was (R244). -/
def HostAction.apply : HostAction → State → State
  | .reset, s => hostReset s
  | .load bytes, s => stateAfter s (Sys2Proof.Machine.load bytes s)
  | .writeKeys keys, s => Sys2Proof.Machine.writeKeys keys s
  | .read, s => s

/-- A transition of the machine: an engine step or a host action (R12). -/
inductive Event where
  | step
  | host (a : HostAction)
deriving DecidableEq, Repr

/-- The state after an event. A step that ends with an error leaves the state of R108, and the host may go on
from it (R219). -/
def Event.apply : Event → State → State
  | .step, s => stateAfter s (Sys2Proof.Machine.step s)
  | .host a, s => a.apply s

/-- The state after a list of events, the first one first. -/
def runEvents (es : List Event) (s : State) : State := es.foldl (fun t e => e.apply t) s

end Sys2Proof.Machine
end

