-- ==== Sys2Proof/Safety.lean ====
section
/-! DEFINITION. The terms that claims use: the reserved words, what each instruction may write, safe runs, key
waits and self-jumps, the machine's invariant. -/

namespace Sys2Proof.Machine

/-- The words whose execution is a DecodeError: the six classes of the table of R78 (30_encoding.md). -/
def reservedWord (w : Word) : Bool :=
  let family := w.toNat / 4096
  let n := w.toNat % 16
  let kk := w.toNat % 256
  (family == 0x0 && w.toNat != 0x00E0 && w.toNat != 0x00EE) ||
  (family == 0x5 && n != 0) ||
  (family == 0x8 && [0x8, 0x9, 0xA, 0xB, 0xC, 0xD, 0xF].contains n) ||
  (family == 0x9 && n != 0) ||
  (family == 0xE && kk != 0x9E && kk != 0xA1) ||
  (family == 0xF && !([0x07, 0x0A, 0x15, 0x18, 0x1E, 0x29, 0x33, 0x55, 0x65].contains kk))

/-- The instructions that may write `pc` in their execute phase: RET, JP, JP V0, CALL, the skips and LD Vx, K
(R24). -/
def writesPc : Instr → Bool
  | .ret | .jp _ | .jpV0 _ | .call _ | .seImm _ _ | .sneImm _ _ | .seReg _ _ | .sneReg _ _ | .skp _ | .sknp _
  | .ldXK _ => true
  | .cls | .sys _ | .ldImm _ _ | .addImm _ _ | .ldReg _ _ | .orReg _ _ | .andReg _ _ | .xorReg _ _
  | .addReg _ _ | .sub _ _ | .shr _ _ | .subn _ _ | .shl _ _ | .ldI _ | .rnd _ _ | .drw _ _ _ | .ldXDT _
  | .ldDTX _ | .ldSTX _ | .addI _ | .ldF _ | .ldB _ | .ldMemX _ | .ldXMem _ => false

/-- The general registers an instruction names as destinations: `V[x]`, or `V[0]`..`V[x]` for LD Vx, [I] (R21). -/
def writesReg : Instr → Reg → Bool
  | .ldImm x _, r | .addImm x _, r | .ldReg x _, r | .orReg x _, r | .andReg x _, r | .xorReg x _, r
  | .addReg x _, r | .sub x _, r | .shr x _, r | .subn x _, r | .shl x _, r | .rnd x _, r | .ldXDT x, r
  | .ldXK x, r => r == x
  | .ldXMem x, r => decide (r ≤ x)
  | .cls, _ | .ret, _ | .sys _, _ | .jp _, _ | .call _, _ | .seImm _ _, _ | .sneImm _ _, _ | .seReg _ _, _
  | .sneReg _ _, _ | .ldI _, _ | .jpV0 _, _ | .drw _ _ _, _ | .skp _, _ | .sknp _, _ | .ldDTX _, _
  | .ldSTX _, _ | .addI _, _ | .ldF _, _ | .ldB _, _ | .ldMemX _, _ => false

/-- The instructions that write VF as a flag, besides any destination (R22). -/
def writesFlag : Instr → Bool
  | .addReg _ _ | .sub _ _ | .subn _ _ | .shr _ _ | .shl _ _ | .drw _ _ _ => true
  | .cls | .ret | .sys _ | .jp _ | .call _ | .seImm _ _ | .sneImm _ _ | .seReg _ _ | .ldImm _ _ | .addImm _ _
  | .ldReg _ _ | .orReg _ _ | .andReg _ _ | .xorReg _ _ | .sneReg _ _ | .ldI _ | .jpV0 _ | .rnd _ _ | .skp _
  | .sknp _ | .ldXDT _ | .ldXK _ | .ldDTX _ | .ldSTX _ | .addI _ | .ldF _ | .ldB _ | .ldMemX _
  | .ldXMem _ => false

/-- The instructions that write `I`: LD I, ADD I and LD F (R26). -/
def writesIndex : Instr → Bool
  | .ldI _ | .addI _ | .ldF _ => true
  | .cls | .ret | .sys _ | .jp _ | .call _ | .seImm _ _ | .sneImm _ _ | .seReg _ _ | .ldImm _ _ | .addImm _ _
  | .ldReg _ _ | .orReg _ _ | .andReg _ _ | .xorReg _ _ | .addReg _ _ | .sub _ _ | .shr _ _ | .subn _ _
  | .shl _ _ | .sneReg _ _ | .jpV0 _ | .rnd _ _ | .drw _ _ _ | .skp _ | .sknp _ | .ldXDT _ | .ldXK _
  | .ldDTX _ | .ldSTX _ | .ldB _ | .ldMemX _ | .ldXMem _ => false

/-- The instructions that use the call stack: CALL and RET (R27). -/
def usesStack : Instr → Bool
  | .ret | .call _ => true
  | .cls | .sys _ | .jp _ | .seImm _ _ | .sneImm _ _ | .seReg _ _ | .ldImm _ _ | .addImm _ _ | .ldReg _ _
  | .orReg _ _ | .andReg _ _ | .xorReg _ _ | .addReg _ _ | .sub _ _ | .shr _ _ | .subn _ _ | .shl _ _
  | .sneReg _ _ | .ldI _ | .jpV0 _ | .rnd _ _ | .drw _ _ _ | .skp _ | .sknp _ | .ldXDT _ | .ldXK _ | .ldDTX _
  | .ldSTX _ | .addI _ | .ldF _ | .ldB _ | .ldMemX _ | .ldXMem _ => false

/-- The instructions that read the keypad latch: SKP, SKNP and LD Vx, K (R33). -/
def readsKeys : Instr → Bool
  | .skp _ | .sknp _ | .ldXK _ => true
  | .cls | .ret | .sys _ | .jp _ | .call _ | .seImm _ _ | .sneImm _ _ | .seReg _ _ | .ldImm _ _ | .addImm _ _
  | .ldReg _ _ | .orReg _ _ | .andReg _ _ | .xorReg _ _ | .addReg _ _ | .sub _ _ | .shr _ _ | .subn _ _
  | .shl _ _ | .sneReg _ _ | .ldI _ | .jpV0 _ | .rnd _ _ | .drw _ _ _ | .ldXDT _ | .ldDTX _ | .ldSTX _
  | .addI _ | .ldF _ | .ldB _ | .ldMemX _ | .ldXMem _ => false

/-- The instructions that write the framebuffer: CLS and DRW (R34). -/
def writesScreen : Instr → Bool
  | .cls | .drw _ _ _ => true
  | .ret | .sys _ | .jp _ | .call _ | .seImm _ _ | .sneImm _ _ | .seReg _ _ | .ldImm _ _ | .addImm _ _
  | .ldReg _ _ | .orReg _ _ | .andReg _ _ | .xorReg _ _ | .addReg _ _ | .sub _ _ | .shr _ _ | .subn _ _
  | .shl _ _ | .sneReg _ _ | .ldI _ | .jpV0 _ | .rnd _ _ | .skp _ | .sknp _ | .ldXDT _ | .ldXK _ | .ldDTX _
  | .ldSTX _ | .addI _ | .ldF _ | .ldB _ | .ldMemX _ | .ldXMem _ => false

/-- How many bytes an instruction stores, from `I` upward: 3 for LD B, `x + 1` for LD [I], Vx, else none (R56). -/
def storedBytes : Instr → Nat
  | .ldB _ => 3
  | .ldMemX x => x.val + 1
  | .cls | .ret | .sys _ | .jp _ | .call _ | .seImm _ _ | .sneImm _ _ | .seReg _ _ | .ldImm _ _ | .addImm _ _
  | .ldReg _ _ | .orReg _ _ | .andReg _ _ | .xorReg _ _ | .addReg _ _ | .sub _ _ | .shr _ _ | .subn _ _
  | .shl _ _ | .sneReg _ _ | .ldI _ | .jpV0 _ | .rnd _ _ | .drw _ _ _ | .skp _ | .sknp _ | .ldXDT _ | .ldXK _
  | .ldDTX _ | .ldSTX _ | .addI _ | .ldF _ | .ldXMem _ => 0

/-- The machine's invariant: memory is in its canonical form. What the spec bounds beside it (`sp`, the widths)
is bounded by type. -/
abbrev State.Inv (s : State) : Prop := s.mem.wf

/-- A safe run: every one of `k` steps ends without an error (R219: an error is never a successful end). -/
def SafeFor (k : Nat) (s : State) : Prop := ∃ t, Host.Core.run Sys2Proof.core k s = .next t

/-- The machine waits for a key: `pc` is at an LD Vx, K word and no key is pressed (R37, R196). -/
def WaitsForKey (s : State) : Prop :=
  (∃ x, decode (fetchWord s) = .ok (.ldXK x)) ∧ ∀ k : Fin 16, s.key[k] = false

/-- `pc` is at a jump to its own address, the end state of a program (R110). It is no halt. -/
def AtSelfJump (s : State) : Prop := ∃ nnn : Addr12, decode (fetchWord s) = .ok (.jp nnn) ∧ s.pc.toNat = nnn.toNat

/-- `Runs P s t`: some number of steps without error leads from `s` to `t`, and each of them is taken in a state
where `P` holds of the state and of the instruction it runs. -/
inductive Runs (P : State → Instr → Prop) : Nat → State → State → Prop where
  | here (s : State) : Runs P 0 s s
  | step {s m t : State} {i : Instr} {k : Nat} (hd : decode (fetchWord s) = .ok i) (hp : P s i)
      (hs : Sys2Proof.Machine.step s = .next m) (hr : Runs P k m t) : Runs P (k + 1) s t

/-- Two states that differ at most in the stack entries at and above `sp` (R29). -/
def SameButStale (s t : State) : Prop :=
  t = { s with stack := t.stack } ∧ ∀ k : Fin Config.stackDepth, k.val < s.sp.val → t.stack[k] = s.stack[k]

/-- The bit of the sprite at `I` for sprite row `row` and column `col`, most significant first (R182). -/
def spriteSet (s : State) (row col : Nat) : Bool := spriteBit (s.readByte (indexAddr s row)) col

end Sys2Proof.Machine
end

