-- ==== Sys2Proof/Certificates/Slice0/Obligations.lean ====
section
/-! DEFINITION. The statements for the provers. Words are written as numbers from the table of R76
(30_encoding.md); the bit patterns there are the spec's own decision D3, log entry 8. -/

open Sys2Proof Sys2Proof.Machine

/-! ## Words written out from R71 -/

/-- The word with family `f` and address `nnn`. -/
def Sys2Proof.wordNNN (f : Nat) (nnn : Addr12) : Word := BitVec.ofNat 16 (4096 * f + nnn.toNat)

/-- The word with family `f`, register `x` and low byte `kk`. -/
def Sys2Proof.wordXKK (f : Nat) (x : Reg) (kk : Nat) : Word := BitVec.ofNat 16 (4096 * f + 256 * x.val + kk)

/-- The word with family `f`, registers `x`, `y` and low nibble `n`. -/
def Sys2Proof.wordXYN (f : Nat) (x y : Reg) (n : Nat) : Word :=
  BitVec.ofNat 16 (4096 * f + 256 * x.val + 16 * y.val + n)

/-! ## Encoding -/

/-- Decoding the encoding of any well-formed instruction gives it back, as a word and as the bytes in memory
(30_encoding.md sections 3 and 1). -/
def Obligations.DecodeOfEncodeIsIdentity : Prop :=
  ∀ i : Instr, i.wellFormed = true →
    decode (encode i) = .ok i ∧ ∀ rest : List Byte, decodeBytes (encodeBytes i ++ rest) = .ok (i, rest)

/-- Every word that decodes is the encoding of the one well-formed instruction it decodes to: no bit of a word
is dropped and no two words mean one instruction (R77). -/
def Obligations.EncodeOfDecodeIsIdentity : Prop :=
  ∀ (w : Word) (i : Instr), decode w = .ok i → i.wellFormed = true ∧ encode i = w

/-- A word decodes to an instruction whose row of the opcode table it matches, and matches no other row, but
that the words of CLS and RET match the SYS row too (R76, R77). -/
def Obligations.DecodeFollowsTheOpcodeTable : Prop :=
  (∀ (w : Word) (i : Instr), decode w = .ok i → i.row.fits w = true) ∧
  ∀ (w : Word) (i j : Instr), i.row.fits w = true → j.row.fits w = true → i.row ≠ j.row →
    ((∃ a, i = .sys a) ∨ ∃ a, j = .sys a) ∧ (w = 0x00E0 ∨ w = 0x00EE)

/-- One word of every format, written out from the patterns of R76, decodes to what it stands for. -/
def Obligations.SampleWordsDecode : Prop :=
  decode 0x00E0 = .ok .cls ∧ decode 0x00EE = .ok .ret ∧ decode 0x0123 = .ok (.sys 0x123) ∧
  decode 0x1ABC = .ok (.jp 0xABC) ∧ decode 0x3342 = .ok (.seImm 3 0x42) ∧ decode 0x5120 = .ok (.seReg 1 2) ∧
  decode 0x80A6 = .ok (.shr 0 10) ∧ decode 0x8AB5 = .ok (.sub 10 11) ∧ decode 0xC30F = .ok (.rnd 3 0x0F) ∧
  decode 0xD125 = .ok (.drw 1 2 5) ∧ decode 0xE49E = .ok (.skp 4) ∧ decode 0xF255 = .ok (.ldMemX 2) ∧
  decode 0xF265 = .ok (.ldXMem 2)

/-- A step whose fetched word is in one of the classes of R78, the SYS class among them, raises DecodeError of
that word and leaves the state of R108; no other step raises DecodeError. -/
def Obligations.ReservedWordsRaiseDecodeError : Prop :=
  ∀ s : State,
    (reservedWord (fetchWord s) = true →
      step s = .fault (.decodeError (fetchWord s) { s with currentInstruction := fetchWord s, pc := s.pc + 2 })) ∧
    (reservedWord (fetchWord s) = false → ∀ (w : Word) (t : State), step s ≠ .fault (.decodeError w t))

/-! ## The step -/

/-- The five phases of R100 in their order: the big-endian fetch at `pc` (R101), the advance (R102), the decode,
the execute phase on the advanced state, and the tick of both timers after a success only (R105). -/
def Obligations.StepRunsTheDecodedInstruction : Prop :=
  ∀ s : State,
    let w : Word := BitVec.ofNat 16
      (256 * (s.mem.read (s.pc.toNat % 4096)).toNat + (s.mem.read ((s.pc.toNat + 1) % 4096)).toNat)
    let s1 : State := { s with currentInstruction := w, pc := BitVec.ofNat 16 (s.pc.toNat + 2) }
    fetchWord s = w ∧
    (∀ r, decode w = .error r → step s = .fault (.decodeError w s1)) ∧
    ∀ i, decode w = .ok i →
      (∀ f, exec i s1 = .fault f → step s = .fault f ∧ f.left = s1) ∧
      ∀ s2, exec i s1 = .next s2 →
        step s = .next { s2 with DT := BitVec.ofNat 8 (s2.DT.toNat - 1), ST := BitVec.ofNat 8 (s2.ST.toNat - 1) }

/-- R108 for every step that ends with an error, and for every execute phase that raises one: nothing but the
fetch and the advance is kept. -/
def Obligations.ErrorLeavesOnlyFetchEffects : Prop :=
  (∀ (s : State) (f : Fault), step s = .fault f →
    f.left = { s with currentInstruction := fetchWord s, pc := BitVec.ofNat 16 (s.pc.toNat + 2) }) ∧
  ∀ (i : Instr) (s : State) (f : Fault), exec i s = .fault f → f.left = s

/-- R104: SYS, CALL on a full stack and RET on an empty one are the only errors of the execute phase, each with
its own kind; nothing is refused; and no step raises ImageTooLarge. -/
def Obligations.OnlyThreeExecuteErrors : Prop :=
  (∀ (i : Instr) (s : State) (f : Fault), exec i s = .fault f ↔
    (∃ nnn, i = .sys nnn ∧ f = .decodeError (wordNNN 0 nnn) s) ∨
    (∃ nnn, i = .call nnn ∧ s.sp.val = 16 ∧ f = .stackOverflow s) ∨
    (i = .ret ∧ s.sp.val = 0 ∧ f = .stackUnderflow s)) ∧
  (∀ (i : Instr) (s : State) (r : Refusal), exec i s ≠ .refused r) ∧
  ∀ (s t : State) (r : Refusal), step s ≠ .refused r ∧ step s ≠ .fault (.imageTooLarge t)

/-- R105 over every instruction: a successful step ends with each timer one below what the execute phase left
(never below 0), and only LD DT and LD ST set one there, each its own. -/
def Obligations.TimersTickOncePerStep : Prop :=
  ∀ (s t : State) (i : Instr), decode (fetchWord s) = .ok i → step s = .next t →
    t.DT.toNat = (match i with | .ldDTX x => s.V[x].toNat | _ => s.DT.toNat) - 1 ∧
    t.ST.toNat = (match i with | .ldSTX x => s.V[x].toNat | _ => s.ST.toNat) - 1

/-! ## The instructions' execute phases -/

/-- R180: the word 0x00E0 is CLS, and CLS turns every cell off and leaves the rest of the state. -/
def Obligations.ClsTurnsEveryCellOff : Prop :=
  decode 0x00E0 = .ok .cls ∧
  ∀ s : State, ∃ t, exec .cls s = .next t ∧ t = { s with fb := t.fb } ∧
    ∀ (cx : Fin 64) (cy : Fin 32), t.fb[cx][cy] = false

/-- R122: the word 0x00EE is RET. With `sp` above 0 it lowers `sp` by one and sets `pc` to the entry there, leaving
the rest of the state; with `sp = 0` it raises StackUnderflow. -/
def Obligations.RetPopsOrUnderflows : Prop :=
  decode 0x00EE = .ok .ret ∧
  ∀ s : State,
    (0 < s.sp.val → ∃ t, exec .ret s = .next t ∧ t = { s with sp := t.sp, pc := t.pc } ∧
      t.sp.val = s.sp.val - 1 ∧ s.stack[s.sp.val - 1]? = some t.pc) ∧
    (s.sp.val = 0 → exec .ret s = .fault (.stackUnderflow s))

/-- R121 (the spec's D8): every `0nnn` word but 0x00E0 and 0x00EE is SYS, and SYS raises DecodeError of that word, in
every state. -/
def Obligations.SysAlwaysRaisesDecodeError : Prop :=
  ∀ nnn : Addr12, nnn ≠ 0x0E0 → nnn ≠ 0x0EE →
    decode (wordNNN 0x0 nnn) = .ok (.sys nnn) ∧
    ∀ s : State, exec (.sys nnn) s = .fault (.decodeError (wordNNN 0x0 nnn) s)

/-- R123: `1nnn` is JP nnn, and it sets `pc` to the address, leaving the rest of the state. -/
def Obligations.JpSetsPc : Prop :=
  ∀ nnn : Addr12, decode (wordNNN 0x1 nnn) = .ok (.jp nnn) ∧
    ∀ s : State, exec (.jp nnn) s = .next { s with pc := BitVec.ofNat 16 nnn.toNat }

/-- R124 (the spec's D5): `Bnnn` is JP V0, nnn, and it sets `pc` to V0 plus the address, not reduced, leaving the
rest of the state. -/
def Obligations.JpV0AddsV0 : Prop :=
  ∀ nnn : Addr12, decode (wordNNN 0xB nnn) = .ok (.jpV0 nnn) ∧
    ∀ s : State, ∃ t, exec (.jpV0 nnn) s = .next t ∧ t = { s with pc := t.pc } ∧
      t.pc.toNat = s.V[0].toNat + nnn.toNat

/-- R125: `2nnn` is CALL nnn. With `sp` below 16 it writes `pc` (already advanced) into the entry at `sp`, raises `sp`
by one and sets `pc` to the address, leaving the other entries and the rest of the state; with `sp = 16` it raises
StackOverflow. -/
def Obligations.CallPushesOrOverflows : Prop :=
  ∀ nnn : Addr12, decode (wordNNN 0x2 nnn) = .ok (.call nnn) ∧
    ∀ s : State,
      (s.sp.val < 16 → ∃ t, exec (.call nnn) s = .next t ∧
        t = { s with stack := t.stack, sp := t.sp, pc := t.pc } ∧
        t.sp.val = s.sp.val + 1 ∧ t.pc = BitVec.ofNat 16 nnn.toNat ∧
        ∀ k : Fin 16, t.stack[k] = if k.val = s.sp.val then s.pc else s.stack[k]) ∧
      (s.sp.val = 16 → exec (.call nnn) s = .fault (.stackOverflow s))

/-- R127, R128: `3xkk` is SE and `4xkk` is SNE; SE adds 2 to `pc` when `V[x]` equals `kk`, SNE when it does not, and
nothing else changes. -/
def Obligations.ImmediateSkips : Prop :=
  ∀ (x : Reg) (kk : Byte),
    decode (wordXKK 0x3 x kk.toNat) = .ok (.seImm x kk) ∧ decode (wordXKK 0x4 x kk.toNat) = .ok (.sneImm x kk) ∧
    ∀ s : State,
      exec (.seImm x kk) s =
        .next { s with pc := if s.V[x] = kk then BitVec.ofNat 16 (s.pc.toNat + 2) else s.pc } ∧
      exec (.sneImm x kk) s =
        .next { s with pc := if s.V[x] = kk then s.pc else BitVec.ofNat 16 (s.pc.toNat + 2) }

/-- R129, R130 (the spec's D9): `5xy0` is SE and `9xy0` is SNE, and another low nibble decodes to nothing; SE adds 2
to `pc` when `V[x]` equals `V[y]`, SNE when it does not, and nothing else changes. -/
def Obligations.RegisterSkips : Prop :=
  ∀ x y : Reg,
    decode (wordXYN 0x5 x y 0) = .ok (.seReg x y) ∧ decode (wordXYN 0x9 x y 0) = .ok (.sneReg x y) ∧
    (∀ n : Fin 16, n ≠ 0 → decode (wordXYN 0x5 x y n.val) = .error .family5LowNibble ∧
      decode (wordXYN 0x9 x y n.val) = .error .family9LowNibble) ∧
    ∀ s : State,
      exec (.seReg x y) s =
        .next { s with pc := if s.V[x] = s.V[y] then BitVec.ofNat 16 (s.pc.toNat + 2) else s.pc } ∧
      exec (.sneReg x y) s =
        .next { s with pc := if s.V[x] = s.V[y] then s.pc else BitVec.ofNat 16 (s.pc.toNat + 2) }

/-- R142, R143: `6xkk` writes `kk` and `8xy0` writes `V[y]` into `V[x]`, VF like any other, and nothing else
changes. -/
def Obligations.RegisterLoads : Prop :=
  (∀ (x : Reg) (kk : Byte), decode (wordXKK 0x6 x kk.toNat) = .ok (.ldImm x kk) ∧
    ∀ s : State, exec (.ldImm x kk) s = .next { s with V := s.V.set x.val kk }) ∧
  ∀ x y : Reg, decode (wordXYN 0x8 x y 0x0) = .ok (.ldReg x y) ∧
    ∀ s : State, exec (.ldReg x y) s = .next { s with V := s.V.set x.val s.V[y] }

/-- R144: `7xkk` adds `kk` to `V[x]` modulo 256, and nothing else changes, VF neither unless it is `V[x]`. -/
def Obligations.AddImmediateWrapsWithoutFlag : Prop :=
  ∀ (x : Reg) (kk : Byte), decode (wordXKK 0x7 x kk.toNat) = .ok (.addImm x kk) ∧
    ∀ s : State, exec (.addImm x kk) s =
      .next { s with V := s.V.set x.val (BitVec.ofNat 8 ((s.V[x].toNat + kk.toNat) % 256)) }

/-- R145, R146, R147: `8xy1`, `8xy2` and `8xy3` write the OR, AND and XOR of all 8 bits of `V[x]` and `V[y]` into
`V[x]`, and nothing else changes, VF neither unless it is `V[x]`. -/
def Obligations.BitwiseOperations : Prop :=
  ∀ x y : Reg,
    decode (wordXYN 0x8 x y 0x1) = .ok (.orReg x y) ∧ decode (wordXYN 0x8 x y 0x2) = .ok (.andReg x y) ∧
    decode (wordXYN 0x8 x y 0x3) = .ok (.xorReg x y) ∧
    ∀ s : State,
      exec (.orReg x y) s = .next { s with V := s.V.set x.val (BitVec.ofNat 8 (s.V[x].toNat ||| s.V[y].toNat)) } ∧
      exec (.andReg x y) s = .next { s with V := s.V.set x.val (BitVec.ofNat 8 (s.V[x].toNat &&& s.V[y].toNat)) } ∧
      exec (.xorReg x y) s = .next { s with V := s.V.set x.val (BitVec.ofNat 8 (s.V[x].toNat ^^^ s.V[y].toNat)) }

/-- R148: `8xy4` writes the sum modulo 256 into `V[x]` and then 1 into VF if the sum is above 255, else 0; nothing else
changes. The write order, result first and VF last, is R141 (the spec's D6, log entry 4). -/
def Obligations.AddSetsCarry : Prop :=
  ∀ x y : Reg, decode (wordXYN 0x8 x y 0x4) = .ok (.addReg x y) ∧
    ∀ s : State, exec (.addReg x y) s =
      .next { s with V := ((s.V.set x.val (BitVec.ofNat 8 ((s.V[x].toNat + s.V[y].toNat) % 256))).set 15
                            (if s.V[x].toNat + s.V[y].toNat > 255 then 1 else 0)) }

/-- R149, R150: `8xy5` writes `V[x] - V[y]` and `8xy7` writes `V[y] - V[x]`, modulo 256, into `V[x]`, and then 1 into VF
if the minuend is strictly the greater, else 0; nothing else changes. The write order, result first and VF last, is
R141 (the spec's D6, log entry 4). -/
def Obligations.SubtractionsSetGreaterFlag : Prop :=
  ∀ x y : Reg,
    decode (wordXYN 0x8 x y 0x5) = .ok (.sub x y) ∧ decode (wordXYN 0x8 x y 0x7) = .ok (.subn x y) ∧
    ∀ s : State,
      exec (.sub x y) s =
        .next { s with V := ((s.V.set x.val (BitVec.ofNat 8 ((s.V[x].toNat + 256 - s.V[y].toNat) % 256))).set 15
                              (if s.V[x].toNat > s.V[y].toNat then 1 else 0)) } ∧
      exec (.subn x y) s =
        .next { s with V := ((s.V.set x.val (BitVec.ofNat 8 ((s.V[y].toNat + 256 - s.V[x].toNat) % 256))).set 15
                              (if s.V[y].toNat > s.V[x].toNat then 1 else 0)) }

/-- R151, R152: for every `y` (R74), `8xy6` halves `V[x]` and then writes its old low bit into VF, and `8xyE` doubles it
modulo 256 and then writes its old high bit into VF; nothing else changes. The write order, result first and VF last,
is R141 (the spec's D6, log entry 4). -/
def Obligations.ShiftsMoveOneBitIntoVF : Prop :=
  ∀ x y : Reg,
    decode (wordXYN 0x8 x y 0x6) = .ok (.shr x y) ∧ decode (wordXYN 0x8 x y 0xE) = .ok (.shl x y) ∧
    ∀ s : State,
      exec (.shr x y) s =
        .next { s with V := ((s.V.set x.val (BitVec.ofNat 8 (s.V[x].toNat / 2))).set 15
                              (BitVec.ofNat 8 (s.V[x].toNat % 2))) } ∧
      exec (.shl x y) s =
        .next { s with V := ((s.V.set x.val (BitVec.ofNat 8 (2 * s.V[x].toNat % 256))).set 15
                              (BitVec.ofNat 8 (s.V[x].toNat / 128))) }

/-- R155 (the spec's D22): `Cxkk` writes a drawn byte under the mask `kk` into `V[x]` and counts the draw, so that the
next RND draws another; nothing else changes. The byte is a free value; its number, the counter of draws, is the
model's, log entry 1. -/
def Obligations.RndMasksAFreshByte : Prop :=
  ∀ (x : Reg) (kk : Byte), decode (wordXKK 0xC x kk.toNat) = .ok (.rnd x kk) ∧
    ∀ s : State, ∃ t, exec (.rnd x kk) s = .next t ∧ t = { s with V := t.V, draws := s.draws + 1 } ∧
      t.V = s.V.set x.val (Config.randomByte s.draws &&& kk)

/-- R160: `Annn` is LD I, nnn, and it sets `I` to the address, leaving the rest of the state. -/
def Obligations.LdISetsIndex : Prop :=
  ∀ nnn : Addr12, decode (wordNNN 0xA nnn) = .ok (.ldI nnn) ∧
    ∀ s : State, exec (.ldI nnn) s = .next { s with I := BitVec.ofNat 16 nnn.toNat }

/-- R161 (the spec's D12): `Fx1E` adds `V[x]` to `I` modulo 2^16, and nothing else changes, VF neither. -/
def Obligations.AddIWrapsWithoutFlag : Prop :=
  ∀ x : Reg, decode (wordXKK 0xF x 0x1E) = .ok (.addI x) ∧
    ∀ s : State, exec (.addI x) s =
      .next { s with I := BitVec.ofNat 16 ((s.I.toNat + s.V[x].toNat) % 65536) }

/-- R162: `Fx29` sets `I` to `5 * V[x]`, leaving the rest of the state. For a digit above 0xF this is the spec's default FONT_DIGIT_OOR = literal (its D11, log
entry 5); for the sixteen digits it holds under either value of that parameter, which the last clause says. -/
def Obligations.LdFPointsAtTheGlyph : Prop :=
  ∀ x : Reg, decode (wordXKK 0xF x 0x29) = .ok (.ldF x) ∧
    (∀ s : State, exec (.ldF x) s = .next { s with I := BitVec.ofNat 16 (5 * s.V[x].toNat) }) ∧
    ∀ (s : State) (d : Byte) (oor : Config.FontDigitOor), d.toNat ≤ 0xF →
      s.pointAtGlyph oor d = { s with I := BitVec.ofNat 16 (5 * d.toNat) }

/-- R165 (addresses by the spec's D4): `Fx33` stores the hundreds, tens and ones of `V[x]` at `I`, `I + 1`, `I + 2`, each
address modulo 4096; every other byte and the rest of the state is as before. Memory is in its canonical form, an
invariant. -/
def Obligations.LdBStoresDecimalDigits : Prop :=
  ∀ x : Reg, decode (wordXKK 0xF x 0x33) = .ok (.ldB x) ∧
    ∀ s : State, s.Inv → ∃ t, exec (.ldB x) s = .next t ∧ t = { s with mem := t.mem } ∧
      (t.mem.read (s.I.toNat % 4096)).toNat = s.V[x].toNat / 100 ∧
      (t.mem.read ((s.I.toNat + 1) % 4096)).toNat = s.V[x].toNat / 10 % 10 ∧
      (t.mem.read ((s.I.toNat + 2) % 4096)).toNat = s.V[x].toNat % 10 ∧
      ∀ a : Nat, a ≠ s.I.toNat % 4096 → a ≠ (s.I.toNat + 1) % 4096 → a ≠ (s.I.toNat + 2) % 4096 →
        t.mem.read a = s.mem.read a

/-- R166 (the spec's D4, D10): `Fx55` stores `V[0]`..`V[x]` at `I` upward, each address modulo 4096; every other byte
and the rest of the state, `I` among it, is as before. Memory is in its canonical form, an invariant. -/
def Obligations.LdMemDumpsRegisters : Prop :=
  ∀ x : Reg, decode (wordXKK 0xF x 0x55) = .ok (.ldMemX x) ∧
    ∀ s : State, s.Inv → ∃ t, exec (.ldMemX x) s = .next t ∧ t = { s with mem := t.mem } ∧
      (∀ k : Reg, k ≤ x → t.mem.read ((s.I.toNat + k.val) % 4096) = s.V[k]) ∧
      ∀ a : Nat, (∀ k : Reg, k ≤ x → a ≠ (s.I.toNat + k.val) % 4096) → t.mem.read a = s.mem.read a

/-- R167 (the spec's D4, D10): `Fx65` loads `V[0]`..`V[x]` from memory at `I` upward, each address modulo 4096; the
registers above `x` and the rest of the state, `I` among it, are as before. -/
def Obligations.LdXMemLoadsRegisters : Prop :=
  ∀ x : Reg, decode (wordXKK 0xF x 0x65) = .ok (.ldXMem x) ∧
    ∀ s : State, ∃ t, exec (.ldXMem x) s = .next t ∧ t = { s with V := t.V } ∧
      ∀ k : Reg, t.V[k] = if k ≤ x then s.mem.read ((s.I.toNat + k.val) % 4096) else s.V[k]

/-- R182 and R181 (the spec's D1, D3, D13), said of the whole screen at once: `Dxyn` is DRW; a cell ends toggled exactly when a
set bit of the sprite covers it under the wrap, VF is 1 when such a bit covers a cell that was on and else 0, and nothing else changes. -/
def Obligations.DrwTogglesTheSpriteCells : Prop :=
  ∀ (x y : Reg) (n : Fin 16), decode (wordXYN 0xD x y n.val) = .ok (.drw x y n) ∧
    ∀ s : State, ∃ t, exec (.drw x y n) s = .next t ∧ t = { s with fb := t.fb, V := t.V } ∧
      (∀ (cx : Fin 64) (cy : Fin 32),
        (t.fb[cx][cy] ≠ s.fb[cx][cy] ↔
          ∃ row col : Nat, row < n.val ∧ col < 8 ∧ cx.val = (s.V[x].toNat + col) % 64 ∧
            cy.val = (s.V[y].toNat + row) % 32 ∧ spriteSet s row col = true)) ∧
      (∀ r : Reg, r ≠ 15 → t.V[r] = s.V[r]) ∧
      (t.V[15] = 0 ∨ t.V[15] = 1) ∧
      (t.V[15] = 1 ↔
        ∃ (row col : Nat) (cx : Fin 64) (cy : Fin 32), row < n.val ∧ col < 8 ∧
          cx.val = (s.V[x].toNat + col) % 64 ∧ cy.val = (s.V[y].toNat + row) % 32 ∧
          spriteSet s row col = true ∧ s.fb[cx][cy] = true)

/-- The sprite bits that the statement above speaks of are the bits of the bytes at `I` upward, bit 7 first
(R182, addresses by the spec's D4). -/
def Obligations.SpriteBitsAreMostSignificantFirst : Prop :=
  ∀ (s : State) (row col : Nat), row < 16 → col < 8 →
    (spriteSet s row col = true ↔
      (s.mem.read ((s.I.toNat + row) % 4096)).toNat / 2 ^ (7 - col) % 2 = 1)

/-- R190, R191, R192 (the spec's D14): `Ex9E` adds 2 to `pc` when key `V[x]` modulo 16 is pressed, `ExA1` when it is not,
and nothing else changes. -/
def Obligations.KeySkips : Prop :=
  ∀ x : Reg,
    decode (wordXKK 0xE x 0x9E) = .ok (.skp x) ∧ decode (wordXKK 0xE x 0xA1) = .ok (.sknp x) ∧
    ∀ (s : State) (k : Fin 16), k.val = s.V[x].toNat % 16 →
      exec (.skp x) s = .next { s with pc := if s.key[k] then BitVec.ofNat 16 (s.pc.toNat + 2) else s.pc } ∧
      exec (.sknp x) s = .next { s with pc := if s.key[k] then s.pc else BitVec.ofNat 16 (s.pc.toNat + 2) }

/-- R195: `Fx0A` stores the number of the lowest pressed key in `V[x]`; with none pressed `pc` goes back by 2 (modulo
2^16); nothing else changes. -/
def Obligations.KeyWaitStoresLowestKey : Prop :=
  ∀ x : Reg, decode (wordXKK 0xF x 0x0A) = .ok (.ldXK x) ∧
    ∀ s : State,
      (∀ k : Fin 16, s.key[k] = true → (∀ j : Fin 16, j < k → s.key[j] = false) →
        exec (.ldXK x) s = .next { s with V := s.V.set x.val (BitVec.ofNat 8 k.val) }) ∧
      ((∀ k : Fin 16, s.key[k] = false) →
        exec (.ldXK x) s = .next { s with pc := BitVec.ofNat 16 (s.pc.toNat + 65534) })

/-- R197, R198: `Fx07` copies `DT` into `V[x]` and `Fx15` copies `V[x]` into `DT`, and nothing else changes in the execute
phase; the tick follows, so that at the end of the step `DT` is one lower, never below 0. -/
def Obligations.DelayTimerInstructions : Prop :=
  ∀ x : Reg,
    decode (wordXKK 0xF x 0x07) = .ok (.ldXDT x) ∧ decode (wordXKK 0xF x 0x15) = .ok (.ldDTX x) ∧
    ∀ s : State,
      exec (.ldXDT x) s = .next { s with V := s.V.set x.val s.DT } ∧
      exec (.ldDTX x) s = .next { s with DT := s.V[x] } ∧
      (fetchWord s = wordXKK 0xF x 0x07 →
        ∃ t, step s = .next t ∧ t.V[x] = s.DT ∧ t.DT.toNat = s.DT.toNat - 1) ∧
      (fetchWord s = wordXKK 0xF x 0x15 → ∃ t, step s = .next t ∧ t.DT.toNat = s.V[x].toNat - 1)

/-- R199 (the spec's D28): `Fx18` copies `V[x]` into `ST` and nothing else changes in the execute phase; the tick
follows, so that at the end of the step `ST` is one lower, never below 0. -/
def Obligations.SoundTimerInstruction : Prop :=
  ∀ x : Reg, decode (wordXKK 0xF x 0x18) = .ok (.ldSTX x) ∧
    ∀ s : State,
      exec (.ldSTX x) s = .next { s with ST := s.V[x] } ∧
      (fetchWord s = wordXKK 0xF x 0x18 → ∃ t, step s = .next t ∧ t.ST.toNat = s.V[x].toNat - 1)

/-! ## Frames over all instructions -/

/-- R24: every instruction but RET, JP, JP V0, CALL, the skips and LD Vx, K leaves `pc` alone in its execute
phase, so that its step leaves it at the fetch address plus 2. -/
def Obligations.OnlyControlTransferWritesPc : Prop :=
  (∀ (i : Instr) (s t : State), writesPc i = false → exec i s = .next t → t.pc = s.pc) ∧
  ∀ (i : Instr) (s t : State), decode (fetchWord s) = .ok i → writesPc i = false → step s = .next t →
    t.pc = BitVec.ofNat 16 (s.pc.toNat + 2)

/-- R26 (the spec's D10): only LD I, ADD I and LD F write `I`. -/
def Obligations.OnlyThreeInstructionsWriteIndex : Prop :=
  ∀ (i : Instr) (s t : State), writesIndex i = false → exec i s = .next t → t.I = s.I

/-- R27: no instruction but CALL and RET writes the call stack or the stack pointer, and none of the others reads
the stack's entries or the pointer: on another stack it does the same. -/
def Obligations.OnlyCallAndRetUseTheStack : Prop :=
  ∀ (i : Instr) (s t : State), usesStack i = false → exec i s = .next t →
    t.stack = s.stack ∧ t.sp = s.sp ∧
    ∀ stack' sp', exec i { s with stack := stack', sp := sp' } = .next { t with stack := stack', sp := sp' }

/-- R21, R22 (the spec's D6, D12): a register changes only as a destination, or as VF of the six instructions that
write a flag. -/
def Obligations.OnlyDestinationsAndFlagsChange : Prop :=
  ∀ (i : Instr) (s t : State) (r : Reg), exec i s = .next t →
    writesReg i r = false → (writesFlag i = false ∨ r ≠ 15) → t.V[r] = s.V[r]

/-- R33: no step writes the keypad latch, whatever its outcome; SKP, SKNP and LD Vx, K read it (each does something
else on some other keypad); and no other instruction does: on any other keypad it does the same. The clause on the
host's write is not R33's, which says only that the host writes the latch: that a write replaces the whole latch is
R226, the spec's own decision D27, and that a write is a function beside step is the model's choice (log entry 3). -/
def Obligations.KeypadIsReadByThreeInstructionsAndNeverWritten : Prop :=
  (∀ s : State, (stateAfter s (step s)).key = s.key) ∧
  (∀ (s : State) (keys : Keypad), (HostAction.writeKeys keys).apply s = { s with key := keys }) ∧
  (∀ i : Instr, readsKeys i = true → ∃ (s t : State) (keys : Keypad),
    exec i s = .next t ∧ exec i { s with key := keys } ≠ .next { t with key := keys }) ∧
  ∀ (i : Instr) (s t : State) (keys : Keypad), readsKeys i = false → exec i s = .next t →
    t.key = s.key ∧ exec i { s with key := keys } = .next { t with key := keys }

/-- R34: only CLS and DRW write the framebuffer. -/
def Obligations.OnlyClsAndDrwWriteTheScreen : Prop :=
  ∀ (i : Instr) (s t : State), writesScreen i = false → exec i s = .next t → t.fb = s.fb

/-- The memory frame of every instruction (R56, R163): each byte outside the stored ones, whose addresses are
computed from `I` before the instruction, reads as before; an instruction that stores nothing leaves memory. -/
def Obligations.MemoryChangesOnlyAtStoredAddresses : Prop :=
  ∀ (i : Instr) (s t : State), exec i s = .next t →
    (∀ a : Nat, (∀ k, k < storedBytes i → a ≠ reduceAddr (indexAddr s k)) → t.mem.read a = s.mem.read a) ∧
    (storedBytes i = 0 → t.mem = s.mem)

/-! ## The invariant -/

/-- The reset state meets the invariant. -/
def Obligations.ResetMeetsTheInvariant : Prop := State.reset.Inv

/-- Every step keeps memory in its canonical form, whether it succeeds or ends with an error. -/
def Obligations.StepKeepsTheInvariant : Prop :=
  ∀ s : State, s.Inv → (∀ t, step s = .next t → t.Inv) ∧ ∀ f, step s = .fault f → f.left.Inv

/-- Every run of steps, errors passed over by the host, and host actions keeps the invariant (R12, R219, R250). -/
def Obligations.EveryEventKeepsTheInvariant : Prop :=
  ∀ (es : List Event) (s : State), s.Inv → (runEvents es s).Inv

/-! ## Reset, load, memory -/

/-- R39, R38, R240, R241 (the spec's D2, D30): every field of the reset state, and of the state that the host's
reset leaves, which keeps only the model's counter of draws (log entry 1). -/
def Obligations.ResetGivesTheListedValues : Prop :=
  (∀ s : State,
    let t := HostAction.reset.apply s
    (∀ r : Reg, t.V[r] = 0) ∧ t.pc = 0x200 ∧ t.I = 0 ∧ t.sp.val = 0 ∧ (∀ k : Fin 16, t.stack[k] = 0) ∧
    t.DT = 0 ∧ t.ST = 0 ∧ (∀ k : Fin 16, t.key[k] = false) ∧
    (∀ (cx : Fin 64) (cy : Fin 32), t.fb[cx][cy] = false) ∧ t.currentInstruction = 0 ∧
    (∀ a : Nat, 80 ≤ a → t.mem.read a = 0) ∧
    (List.range 80).map t.mem.read =
      [0xF0, 0x90, 0x90, 0x90, 0xF0, 0x20, 0x60, 0x20, 0x20, 0x70, 0xF0, 0x10, 0xF0, 0x80, 0xF0, 0xF0, 0x10, 0xF0,
       0x10, 0xF0, 0x90, 0x90, 0xF0, 0x10, 0x10, 0xF0, 0x80, 0xF0, 0x10, 0xF0, 0xF0, 0x80, 0xF0, 0x90, 0xF0, 0xF0,
       0x10, 0x20, 0x40, 0x40, 0xF0, 0x90, 0xF0, 0x90, 0xF0, 0xF0, 0x90, 0xF0, 0x10, 0xF0, 0xF0, 0x90, 0xF0, 0x90,
       0x90, 0xE0, 0x90, 0xE0, 0x90, 0xE0, 0xF0, 0x80, 0x80, 0x80, 0xF0, 0xE0, 0x90, 0x90, 0x90, 0xE0, 0xF0, 0x80,
       0xF0, 0x80, 0xF0, 0xF0, 0x80, 0xF0, 0x80, 0x80] ∧
    t = { State.reset with draws := s.draws })

/-- R214, R244: an image of more than 3584 bytes is an error, and the state is as it was. -/
def Obligations.TooLargeImageChangesNothing : Prop :=
  ∀ (bytes : List Byte) (s : State), 3584 < bytes.length →
    load bytes s = .fault (.imageTooLarge s) ∧ (HostAction.load bytes).apply s = s

/-- R243, R245 (the spec's D26): an image of at most 3584 bytes lies at 0x200 upward afterwards, and every other
byte and the rest of the state is as before. -/
def Obligations.LoadCopiesTheImage : Prop :=
  ∀ (bytes : List Byte) (s : State), s.Inv → bytes.length ≤ 3584 →
    ∃ t, load bytes s = .next t ∧ t = { s with mem := t.mem } ∧
      (∀ k, k < bytes.length → some (t.mem.read (512 + k)) = bytes[k]?) ∧
      ∀ a : Nat, (a < 512 ∨ 512 + bytes.length ≤ a) → t.mem.read a = s.mem.read a

/-- R60, R53: a byte that is read is the one last written to its address modulo 4096, and a write leaves every
other address and everything but memory. -/
def Obligations.ReadGivesTheLastWrite : Prop :=
  ∀ (s : State) (a b : Word) (v : Byte), s.Inv →
    (s.writeByte a v).readByte b = (if a.toNat % 4096 = b.toNat % 4096 then v else s.readByte b) ∧
    s.writeByte a v = { s with mem := (s.writeByte a v).mem }

/-- R62 (the spec's D20): after LD [I], Vx the next fetch at two stored addresses reads the two registers stored
there, high byte first: a store is seen by the fetch. -/
def Obligations.StoresAreSeenByTheNextFetch : Prop :=
  ∀ (x j k : Reg) (s t u : State), s.Inv → j.val + 1 = k.val → k ≤ x → exec (.ldMemX x) s = .next t →
    u.mem = t.mem → u.pc.toNat % 4096 = (s.I.toNat + j.val) % 4096 →
    fetchWord u = BitVec.ofNat 16 (256 * s.V[j].toNat + s.V[k].toNat)

/-! ## What cannot be observed -/

/-- R31 (the spec's D23, D28): no instruction reads the sound timer. From two states that differ only in it, steps
end alike and in states that differ only in it. -/
def Obligations.SoundTimerIsNotRead : Prop :=
  ∀ (s : State) (v : Byte),
    (∀ t, step s = .next t → ∃ v', step { s with ST := v } = .next { t with ST := v' }) ∧
    ∀ f, step s = .fault f → ∃ g, step { s with ST := v } = .fault g ∧ g.code = f.code ∧
      g.left = { f.left with ST := v }

/-- R29 (the spec's D25): stack entries at and above `sp` are never observed. From two states that differ only in
them, steps end alike and in states that differ only in them. -/
def Obligations.StaleStackEntriesAreNotObserved : Prop :=
  ∀ s s' : State, SameButStale s s' →
    (∀ t, step s = .next t → ∃ t', step s' = .next t' ∧ SameButStale t t') ∧
    ∀ f, step s = .fault f → ∃ f', step s' = .fault f' ∧ f'.code = f.code ∧ SameButStale f.left f'.left

/-- R36: every step writes the fetched word into `currentInstruction`, whatever its outcome, and nothing reads it:
neither a step nor an execute phase depends on what it held. -/
def Obligations.CurrentInstructionIsWrittenAndNeverRead : Prop :=
  (∀ s : State, (stateAfter s (step s)).currentInstruction = fetchWord s) ∧
  (∀ (s : State) (w : Word), step { s with currentInstruction := w } = step s) ∧
  ∀ (i : Instr) (s t : State) (w : Word), exec i s = .next t →
    exec i { s with currentInstruction := w } = .next { t with currentInstruction := w }

/-- R53 (the spec's D4): an access uses its address modulo 4096. A fetch at `pc + 0x1000` is the fetch at `pc`, and
the four instructions that access memory at `I` do the same at `I + 0x1000`. -/
def Obligations.AccessesReduceTheirAddress : Prop :=
  (∀ s : State, fetchWord { s with pc := s.pc + 0x1000 } = fetchWord s) ∧
  ∀ (i : Instr) (s t : State),
    ((∃ x, i = .ldB x) ∨ (∃ x, i = .ldMemX x) ∨ (∃ x, i = .ldXMem x) ∨ ∃ x y n, i = .drw x y n) →
    exec i s = .next t → exec i { s with I := s.I + 0x1000 } = .next { t with I := s.I + 0x1000 }

/-! ## Runs -/

/-- R131: after a CALL, any run of successful steps that does not pop the call's entry, and then the RET that pops
it: `pc` is the address after the CALL and `sp` is as before the call. -/
def Obligations.RetReturnsBehindItsCall : Prop :=
  ∀ (nnn : Addr12) (n : Nat) (s t u : State),
    decode (fetchWord s) = .ok (.call nnn) → step s = .next t →
    Runs (fun m i => i = .ret → t.sp.val < m.sp.val) n t u →
    u.sp = t.sp → decode (fetchWord u) = .ok .ret →
    ∃ v, step u = .next v ∧ v.pc = BitVec.ofNat 16 (s.pc.toNat + 2) ∧ v.sp = s.sp

/-- R200: an LD Vx, DT that runs `k + 1` steps after LD DT set the timer to `v`, with no other LD DT between, reads
`max(v - (k + 1), 0)`. -/
def Obligations.DelayTimerCountsStepsDown : Prop :=
  ∀ (x y : Reg) (k : Nat) (s t u : State),
    decode (fetchWord s) = .ok (.ldDTX x) → step s = .next t →
    Runs (fun _ i => ∀ z, i ≠ .ldDTX z) k t u → decode (fetchWord u) = .ok (.ldXDT y) →
    ∃ v, step u = .next v ∧ v.V[y].toNat = s.V[x].toNat - (k + 1)

/-- R196: while no key is pressed, any number of steps at an LD Vx, K succeeds and changes nothing but the timers,
which count down to 0 (and `currentInstruction`, which every fetch writes, R101). -/
def Obligations.KeyWaitRepeatsUntilAKeyIsPressed : Prop :=
  ∀ (s : State) (k : Nat), WaitsForKey s →
    Host.Core.run Sys2Proof.core (k + 1) s =
      .next { s with currentInstruction := fetchWord s, DT := BitVec.ofNat 8 (s.DT.toNat - (k + 1)),
                     ST := BitVec.ofNat 8 (s.ST.toNat - (k + 1)) }

/-- R110 (the spec's D24): at a jump to its own address every further step leaves `pc` and only ticks the timers. -/
def Obligations.SelfJumpOnlyTicksTheTimers : Prop :=
  ∀ (s : State) (k : Nat), AtSelfJump s →
    Host.Core.run Sys2Proof.core (k + 1) s =
      .next { s with currentInstruction := fetchWord s, DT := BitVec.ofNat 8 (s.DT.toNat - (k + 1)),
                     ST := BitVec.ofNat 8 (s.ST.toNat - (k + 1)) }

/-- Drawing the same sprite twice at the same coordinates gives the screen back, and the second draw collides
exactly when a set bit of the sprite covers a cell that was off before the first (R182; on a blank screen this is
the source's example S4). -/
def Obligations.DrawingTwiceRestoresTheScreen : Prop :=
  ∀ (x y : Reg) (n : Fin 16) (s t u : State), exec (.drw x y n) s = .next t → exec (.drw x y n) t = .next u →
    t.V[x] = s.V[x] → t.V[y] = s.V[y] →
    u.fb = s.fb ∧
    (u.V[15] = 1 ↔
      ∃ (row col : Nat) (cx : Fin 64) (cy : Fin 32), row < n.val ∧ col < 8 ∧
        cx.val = (s.V[x].toNat + col) % 64 ∧ cy.val = (s.V[y].toNat + row) % 32 ∧
        spriteSet s row col = true ∧ s.fb[cx][cy] = false)
end

