-- ==== Sys2Proof/Laws/Decode.lean ====
section
/-! SUPPORT. The fields of a word as numbers, and the fields of the words that the encoder packs. -/

namespace Sys2Proof

/-! ### Fields as numbers (R71) -/

theorem fieldFamily_val (w : Word) : (fieldFamily w).val = w.toNat / 4096 := by
  have h := w.isLt
  simp only [fieldFamily, BitVec.val_toFin, BitVec.extractLsb'_toNat, Nat.shiftRight_eq_div_pow]
  omega

theorem fieldX_val (w : Word) : (fieldX w).val = w.toNat / 256 % 16 := by
  simp [fieldX, Nat.shiftRight_eq_div_pow]

theorem fieldY_val (w : Word) : (fieldY w).val = w.toNat / 16 % 16 := by
  simp [fieldY, Nat.shiftRight_eq_div_pow]

theorem fieldN_val (w : Word) : (fieldN w).val = w.toNat % 16 := by
  simp [fieldN]

theorem fieldKK_toNat (w : Word) : (fieldKK w).toNat = w.toNat % 256 := by
  simp [fieldKK, BitVec.extractLsb'_toNat]

theorem fieldNNN_toNat (w : Word) : (fieldNNN w).toNat = w.toNat % 4096 := by
  simp [fieldNNN, BitVec.extractLsb'_toNat]

/-! ### Byte order (R55) -/

theorem wordOfBytes_toNat (hi lo : Byte) : (wordOfBytes hi lo).toNat = 256 * hi.toNat + lo.toNat := by
  have := lo.isLt
  rw [wordOfBytes, BitVec.toNat_append, ← Nat.shiftLeft_add_eq_or_of_lt this, Nat.shiftLeft_eq]
  omega

theorem highByte_toNat (w : Word) : (highByte w).toNat = w.toNat / 256 := by
  have h := w.isLt
  simp only [highByte, BitVec.extractLsb'_toNat, Nat.shiftRight_eq_div_pow]
  omega

theorem lowByte_toNat (w : Word) : (lowByte w).toNat = w.toNat % 256 := by
  simp [lowByte, BitVec.extractLsb'_toNat]

@[simp] theorem highByte_wordOfBytes (hi lo : Byte) : highByte (wordOfBytes hi lo) = hi := by
  have := lo.isLt
  apply BitVec.eq_of_toNat_eq
  rw [highByte_toNat, wordOfBytes_toNat]
  omega

@[simp] theorem lowByte_wordOfBytes (hi lo : Byte) : lowByte (wordOfBytes hi lo) = lo := by
  have := lo.isLt
  apply BitVec.eq_of_toNat_eq
  rw [lowByte_toNat, wordOfBytes_toNat]
  omega

@[simp] theorem wordOfBytes_split (w : Word) : wordOfBytes (highByte w) (lowByte w) = w := by
  apply BitVec.eq_of_toNat_eq
  rw [wordOfBytes_toNat, highByte_toNat, lowByte_toNat]
  omega

/-! ### Packed words (R71) -/

theorem packNNN_toNat (f : Fin 16) (a : Addr12) : (packNNN f a).toNat = f.val * 4096 + a.toNat := by
  have := f.isLt
  have := a.isLt
  simp only [packNNN, BitVec.toNat_ofNat]
  omega

theorem packXKK_toNat (f : Fin 16) (x : Reg) (kk : Byte) :
    (packXKK f x kk).toNat = f.val * 4096 + x.val * 256 + kk.toNat := by
  have := f.isLt
  have := x.isLt
  have := kk.isLt
  simp only [packXKK, BitVec.toNat_ofNat]
  omega

theorem packXYN_toNat (f : Fin 16) (x y : Reg) (n : Fin 16) :
    (packXYN f x y n).toNat = f.val * 4096 + x.val * 256 + y.val * 16 + n.val := by
  have := f.isLt
  have := x.isLt
  have := y.isLt
  have := n.isLt
  simp only [packXYN, BitVec.toNat_ofNat]
  omega

@[simp] theorem fieldFamily_packNNN (f : Fin 16) (a : Addr12) : fieldFamily (packNNN f a) = f := by
  have := a.isLt
  apply Fin.ext
  rw [fieldFamily_val, packNNN_toNat]
  omega

@[simp] theorem fieldNNN_packNNN (f : Fin 16) (a : Addr12) : fieldNNN (packNNN f a) = a := by
  have := a.isLt
  apply BitVec.eq_of_toNat_eq
  rw [fieldNNN_toNat, packNNN_toNat]
  omega

@[simp] theorem fieldFamily_packXKK (f : Fin 16) (x : Reg) (kk : Byte) : fieldFamily (packXKK f x kk) = f := by
  have := x.isLt
  have := kk.isLt
  apply Fin.ext
  rw [fieldFamily_val, packXKK_toNat]
  omega

@[simp] theorem fieldX_packXKK (f : Fin 16) (x : Reg) (kk : Byte) : fieldX (packXKK f x kk) = x := by
  have := x.isLt
  have := kk.isLt
  apply Fin.ext
  rw [fieldX_val, packXKK_toNat]
  omega

@[simp] theorem fieldKK_packXKK (f : Fin 16) (x : Reg) (kk : Byte) : fieldKK (packXKK f x kk) = kk := by
  have := kk.isLt
  apply BitVec.eq_of_toNat_eq
  rw [fieldKK_toNat, packXKK_toNat]
  omega

@[simp] theorem fieldFamily_packXYN (f : Fin 16) (x y : Reg) (n : Fin 16) : fieldFamily (packXYN f x y n) = f := by
  have := x.isLt
  have := y.isLt
  have := n.isLt
  apply Fin.ext
  rw [fieldFamily_val, packXYN_toNat]
  omega

@[simp] theorem fieldX_packXYN (f : Fin 16) (x y : Reg) (n : Fin 16) : fieldX (packXYN f x y n) = x := by
  have := x.isLt
  have := y.isLt
  have := n.isLt
  apply Fin.ext
  rw [fieldX_val, packXYN_toNat]
  omega

@[simp] theorem fieldY_packXYN (f : Fin 16) (x y : Reg) (n : Fin 16) : fieldY (packXYN f x y n) = y := by
  have := y.isLt
  have := n.isLt
  apply Fin.ext
  rw [fieldY_val, packXYN_toNat]
  omega

@[simp] theorem fieldN_packXYN (f : Fin 16) (x y : Reg) (n : Fin 16) : fieldN (packXYN f x y n) = n := by
  have := n.isLt
  apply Fin.ext
  rw [fieldN_val, packXYN_toNat]
  omega

/-! ### Words from their fields -/

/-- A word is packed from its family and address. -/
theorem packNNN_fields (w : Word) : packNNN (fieldFamily w) (fieldNNN w) = w := by
  have := w.isLt
  apply BitVec.eq_of_toNat_eq
  rw [packNNN_toNat, fieldFamily_val, fieldNNN_toNat]
  omega

/-- A word is packed from its family, register and low byte. -/
theorem packXKK_fields (w : Word) : packXKK (fieldFamily w) (fieldX w) (fieldKK w) = w := by
  have := w.isLt
  apply BitVec.eq_of_toNat_eq
  rw [packXKK_toNat, fieldFamily_val, fieldX_val, fieldKK_toNat]
  omega

/-- A word is packed from its four nibbles. -/
theorem packXYN_fields (w : Word) : packXYN (fieldFamily w) (fieldX w) (fieldY w) (fieldN w) = w := by
  have := w.isLt
  apply BitVec.eq_of_toNat_eq
  rw [packXYN_toNat, fieldFamily_val, fieldX_val, fieldY_val, fieldN_val]
  omega

/-! ### Masked words (R76) -/

/-- What the mask of the NNN and XKK rows keeps of a word: its family (R76). -/
theorem and_F000 (w : Word) : w &&& 0xF000 = packNNN (fieldFamily w) 0 := by
  have := w.isLt
  apply BitVec.eq_of_getLsbD_eq
  intro i hi
  rw [BitVec.getLsbD_and, BitVec.getLsbD, BitVec.getLsbD, BitVec.getLsbD, packNNN_toNat, fieldFamily_val]
  simp only [Nat.testBit_eq_decide_div_mod_eq]
  interval_cases i <;> simp <;> omega

/-- What the mask of the X rows keeps: family and low byte (R76). -/
theorem and_F0FF (w : Word) : w &&& 0xF0FF = packXKK (fieldFamily w) 0 (fieldKK w) := by
  have := w.isLt
  apply BitVec.eq_of_getLsbD_eq
  intro i hi
  rw [BitVec.getLsbD_and, BitVec.getLsbD, BitVec.getLsbD, BitVec.getLsbD, packXKK_toNat, fieldFamily_val,
    fieldKK_toNat]
  simp only [Nat.testBit_eq_decide_div_mod_eq]
  interval_cases i <;> simp <;> omega

/-- What the mask of the XY rows keeps: family and low nibble (R76). -/
theorem and_F00F (w : Word) : w &&& 0xF00F = packXYN (fieldFamily w) 0 0 (fieldN w) := by
  have := w.isLt
  apply BitVec.eq_of_getLsbD_eq
  intro i hi
  rw [BitVec.getLsbD_and, BitVec.getLsbD, BitVec.getLsbD, BitVec.getLsbD, packXYN_toNat, fieldFamily_val, fieldN_val]
  simp only [Nat.testBit_eq_decide_div_mod_eq]
  interval_cases i <;> simp <;> omega

end Sys2Proof
end

