-- ==== Sys2Proof/Laws/Memory.lean ====
section
/-! SUPPORT. The laws of memory: read after write, the frame of a write, the canonical form kept. -/

namespace Sys2Proof.Machine

/-- The reduced address is the address modulo 4096 (R53). -/
theorem reduceAddr_eq (a : Word) : reduceAddr a = a.toNat % 4096 := by
  simp only [reduceAddr, BitVec.toNat_and]
  exact Nat.and_two_pow_sub_one_eq_mod a.toNat 12

/-- Every reduced address is inside memory (R53). -/
theorem reduceAddr_lt (a : Word) : reduceAddr a < Config.memSize := by
  rw [reduceAddr_eq]; exact Nat.mod_lt _ (by decide)

/-- An address that no entry lists reads as its reset contents. -/
theorem Memory.read_of_unlisted {m : Memory} {a : Nat} (h : ∀ c ∈ m, c.1 ≠ a) : m.read a = resetByte a := by
  induction m with
  | nil => rfl
  | cons c m ih =>
    rw [Memory.read, if_neg (h c (by simp))]
    exact ih fun d hd => h d (by simp [hd])

/-- A write leaves every other address, in any list (R60). -/
theorem Memory.read_write_ne (m : Memory) {a b : Nat} (v : Byte) (h : a ≠ b) : (m.write a v).read b = m.read b := by
  induction m with
  | nil => unfold Memory.write; split <;> simp [Memory.read, h]
  | cons c m ih =>
    simp only [Memory.write]
    split
    · split <;> simp [Memory.read, h]
    · split
      · rename_i _ hc
        have hb : c.1 ≠ b := fun e => h (hc.trans e)
        split <;> simp [Memory.read, h, hb]
      · simp only [Memory.read, ih]

/-- In the canonical form, an address below every listed one reads as its reset contents. -/
theorem Memory.read_below {m : Memory} {a : Nat} (h : ∀ c ∈ m, a < c.1) : m.read a = resetByte a :=
  Memory.read_of_unlisted fun c hc => Nat.ne_of_gt (h c hc)

/-- In the canonical form, a read gives the byte last written to the address (R60). -/
theorem Memory.read_write_self {m : Memory} (hm : m.Pairwise (fun c d => c.1 < d.1)) (a : Nat) (v : Byte) :
    (m.write a v).read a = v := by
  induction m with
  | nil => unfold Memory.write; split <;> simp_all [Memory.read]
  | cons c m ih =>
    obtain ⟨hc, hm⟩ := List.pairwise_cons.1 hm
    simp only [Memory.write]
    split
    · rename_i hlt
      split
      · rename_i hv
        rw [Memory.read_below, hv]
        intro d hd
        rcases List.mem_cons.1 hd with rfl | hd
        · exact hlt
        · exact Nat.lt_trans hlt (hc d hd)
      · simp [Memory.read]
    · split
      · rename_i _ heq
        split
        · rename_i hv
          rw [Memory.read_below (heq ▸ hc), hv]
        · simp [Memory.read]
      · rename_i _ hne
        rw [Memory.read, if_neg (fun e => hne e.symm), ih hm]

/-- The entries of a memory after a write are old entries or the written one. -/
theorem Memory.mem_write {m : Memory} {a : Nat} {v : Byte} {c : Host.Cell} (h : c ∈ m.write a v) :
    c ∈ m ∨ (c = (a, v) ∧ v ≠ resetByte a) := by
  induction m with
  | nil =>
    simp only [Memory.write] at h
    split at h
    · simp at h
    · exact .inr ⟨by simpa using h, ‹_›⟩
  | cons d m ih =>
    simp only [Memory.write] at h
    split at h
    · split at h
      · exact .inl h
      · rcases List.mem_cons.1 h with rfl | h
        · exact .inr ⟨rfl, ‹_›⟩
        · exact .inl h
    · split at h
      · split at h
        · exact .inl (List.mem_cons_of_mem _ h)
        · rcases List.mem_cons.1 h with rfl | h
          · exact .inr ⟨rfl, ‹_›⟩
          · exact .inl (List.mem_cons_of_mem _ h)
      · rcases List.mem_cons.1 h with rfl | h
        · exact .inl List.mem_cons_self
        · rcases ih h with h | h
          · exact .inl (List.mem_cons_of_mem _ h)
          · exact .inr h

/-- A write at an address inside memory keeps the canonical form. -/
theorem Memory.wf_write {m : Memory} (hm : m.wf) {a : Nat} (ha : a < Config.memSize) (v : Byte) : (m.write a v).wf := by
  refine ⟨?_, ?_⟩
  · obtain ⟨hs, -⟩ := hm
    induction m with
    | nil => simp only [Memory.write]; split <;> simp
    | cons c m ih =>
      obtain ⟨hc, hs⟩ := List.pairwise_cons.1 hs
      simp only [Memory.write]
      split
      · rename_i hlt
        split
        · exact List.pairwise_cons.2 ⟨hc, hs⟩
        · refine List.pairwise_cons.2 ⟨fun d hd => ?_, List.pairwise_cons.2 ⟨hc, hs⟩⟩
          rcases List.mem_cons.1 hd with rfl | hd
          · exact hlt
          · exact Nat.lt_trans hlt (hc d hd)
      · split
        · rename_i _ heq
          split
          · exact hs
          · refine List.pairwise_cons.2 ⟨fun d hd => ?_, hs⟩
            rw [heq]; exact hc d hd
        · rename_i hlt hne
          refine List.pairwise_cons.2 ⟨fun d hd => ?_, ih hs⟩
          rcases Memory.mem_write hd with hd | ⟨rfl, -⟩
          · exact hc d hd
          · exact Nat.lt_of_le_of_ne (Nat.le_of_not_lt hlt) (fun e => hne e.symm)
  · intro c hc
    rcases Memory.mem_write hc with hc | ⟨rfl, hv⟩
    · exact hm.2 c hc
    · exact ⟨ha, hv⟩

/-- A write of one byte of the machine keeps the canonical form. -/
theorem State.writeByte_wf {s : State} (h : s.mem.wf) (a : Word) (b : Byte) : (s.writeByte a b).mem.wf :=
  Memory.wf_write h (reduceAddr_lt a) b

/-- Storing any bytes keeps the canonical form. -/
theorem State.storeBytes_wf {s : State} (h : s.mem.wf) (a : Word) (bs : List Byte) : (s.storeBytes a bs).mem.wf := by
  induction bs generalizing s a with
  | nil => exact h
  | cons b bs ih => exact ih (State.writeByte_wf h a b) (a + 1)

/-- Storing bytes leaves every address that is none of theirs (R53, R60). -/
theorem State.storeBytes_read_ne (s : State) (a : Word) (bs : List Byte) {b : Nat}
    (h : ∀ k, k < bs.length → b ≠ reduceAddr (a + BitVec.ofNat 16 k)) :
    (s.storeBytes a bs).mem.read b = s.mem.read b := by
  induction bs generalizing s a with
  | nil => rfl
  | cons c bs ih =>
    have h0 : reduceAddr a ≠ b := by simpa using (h 0 (by simp)).symm
    rw [State.storeBytes, ih (s.writeByte a c) (a + 1)]
    · exact Memory.read_write_ne _ _ h0
    · intro k hk
      have := h (k + 1) (by simpa using hk)
      rwa [show a + BitVec.ofNat 16 (k + 1) = a + 1 + BitVec.ofNat 16 k by
        rw [BitVec.add_assoc, Nat.add_comm]; congr 1; exact BitVec.ofNat_add 1 k] at this

/-- Stored bytes are read back in their order, as long as they do not overlap themselves round the end of memory
(R53, R59). -/
theorem State.storeBytes_read {s : State} (h : s.mem.wf) (a : Word) (bs : List Byte) (hl : bs.length ≤ Config.memSize)
    {k : Nat} (hk : k < bs.length) :
    (s.storeBytes a bs).mem.read (reduceAddr (a + BitVec.ofNat 16 k)) = bs[k] := by
  induction bs generalizing s a k with
  | nil => simp at hk
  | cons b bs ih =>
    rw [State.storeBytes]
    cases k with
    | zero =>
      rw [State.storeBytes_read_ne]
      · rw [show a + BitVec.ofNat 16 0 = a from BitVec.add_zero a]
        exact Memory.read_write_self h.1 _ _
      · intro j hj e
        rw [reduceAddr_eq, reduceAddr_eq] at e
        have hj' : j + 1 < 4096 := by simp only [List.length_cons, Config.memSize] at hl; omega
        simp only [BitVec.toNat_add, BitVec.toNat_ofNat, show (1 : Word).toNat = 1 from rfl] at e
        omega
    | succ k =>
      have := ih (State.writeByte_wf h a b) (a + 1) (by simp only [List.length_cons] at hl; omega)
        (k := k) (by simpa using hk)
      rwa [show a + 1 + BitVec.ofNat 16 k = a + BitVec.ofNat 16 (k + 1) by
        rw [BitVec.add_assoc, Nat.add_comm k 1]; congr 1; exact (BitVec.ofNat_add 1 k).symm] at this

end Sys2Proof.Machine
end

