-- ==== Sys2Proof/Laws/State.lean ====
section
/-! SUPPORT. One lemma per field per update of State, so that no later proof unfolds a record update. -/

namespace Sys2Proof.Machine

/-! ### setReg -/

@[simp] theorem State.setReg_V (s : State) (x : Reg) (b : Byte) : (s.setReg x b).V = s.V.set x.val b x.isLt := rfl

@[simp] theorem State.setReg_pc (s : State) (x : Reg) (b : Byte) : (s.setReg x b).pc = s.pc := rfl

@[simp] theorem State.setReg_I (s : State) (x : Reg) (b : Byte) : (s.setReg x b).I = s.I := rfl

@[simp] theorem State.setReg_sp (s : State) (x : Reg) (b : Byte) : (s.setReg x b).sp = s.sp := rfl

@[simp] theorem State.setReg_stack (s : State) (x : Reg) (b : Byte) : (s.setReg x b).stack = s.stack := rfl

@[simp] theorem State.setReg_DT (s : State) (x : Reg) (b : Byte) : (s.setReg x b).DT = s.DT := rfl

@[simp] theorem State.setReg_ST (s : State) (x : Reg) (b : Byte) : (s.setReg x b).ST = s.ST := rfl

@[simp] theorem State.setReg_key (s : State) (x : Reg) (b : Byte) : (s.setReg x b).key = s.key := rfl

@[simp] theorem State.setReg_fb (s : State) (x : Reg) (b : Byte) : (s.setReg x b).fb = s.fb := rfl

@[simp] theorem State.setReg_mem (s : State) (x : Reg) (b : Byte) : (s.setReg x b).mem = s.mem := rfl

@[simp] theorem State.setReg_currentInstruction (s : State) (x : Reg) (b : Byte) :
    (s.setReg x b).currentInstruction = s.currentInstruction := rfl

@[simp] theorem State.setReg_draws (s : State) (x : Reg) (b : Byte) : (s.setReg x b).draws = s.draws := rfl

/-! ### setI -/

@[simp] theorem State.setI_V (s : State) (w : Word) : (s.setI w).V = s.V := rfl

@[simp] theorem State.setI_pc (s : State) (w : Word) : (s.setI w).pc = s.pc := rfl

@[simp] theorem State.setI_I (s : State) (w : Word) : (s.setI w).I = w := rfl

@[simp] theorem State.setI_sp (s : State) (w : Word) : (s.setI w).sp = s.sp := rfl

@[simp] theorem State.setI_stack (s : State) (w : Word) : (s.setI w).stack = s.stack := rfl

@[simp] theorem State.setI_DT (s : State) (w : Word) : (s.setI w).DT = s.DT := rfl

@[simp] theorem State.setI_ST (s : State) (w : Word) : (s.setI w).ST = s.ST := rfl

@[simp] theorem State.setI_key (s : State) (w : Word) : (s.setI w).key = s.key := rfl

@[simp] theorem State.setI_fb (s : State) (w : Word) : (s.setI w).fb = s.fb := rfl

@[simp] theorem State.setI_mem (s : State) (w : Word) : (s.setI w).mem = s.mem := rfl

@[simp] theorem State.setI_currentInstruction (s : State) (w : Word) :
    (s.setI w).currentInstruction = s.currentInstruction := rfl

@[simp] theorem State.setI_draws (s : State) (w : Word) : (s.setI w).draws = s.draws := rfl

/-! ### setPc -/

@[simp] theorem State.setPc_V (s : State) (w : Word) : (s.setPc w).V = s.V := rfl

@[simp] theorem State.setPc_pc (s : State) (w : Word) : (s.setPc w).pc = w := rfl

@[simp] theorem State.setPc_I (s : State) (w : Word) : (s.setPc w).I = s.I := rfl

@[simp] theorem State.setPc_sp (s : State) (w : Word) : (s.setPc w).sp = s.sp := rfl

@[simp] theorem State.setPc_stack (s : State) (w : Word) : (s.setPc w).stack = s.stack := rfl

@[simp] theorem State.setPc_DT (s : State) (w : Word) : (s.setPc w).DT = s.DT := rfl

@[simp] theorem State.setPc_ST (s : State) (w : Word) : (s.setPc w).ST = s.ST := rfl

@[simp] theorem State.setPc_key (s : State) (w : Word) : (s.setPc w).key = s.key := rfl

@[simp] theorem State.setPc_fb (s : State) (w : Word) : (s.setPc w).fb = s.fb := rfl

@[simp] theorem State.setPc_mem (s : State) (w : Word) : (s.setPc w).mem = s.mem := rfl

@[simp] theorem State.setPc_currentInstruction (s : State) (w : Word) :
    (s.setPc w).currentInstruction = s.currentInstruction := rfl

@[simp] theorem State.setPc_draws (s : State) (w : Word) : (s.setPc w).draws = s.draws := rfl

/-! ### writeByte -/

@[simp] theorem State.writeByte_V (s : State) (a : Word) (b : Byte) : (s.writeByte a b).V = s.V := rfl

@[simp] theorem State.writeByte_pc (s : State) (a : Word) (b : Byte) : (s.writeByte a b).pc = s.pc := rfl

@[simp] theorem State.writeByte_I (s : State) (a : Word) (b : Byte) : (s.writeByte a b).I = s.I := rfl

@[simp] theorem State.writeByte_sp (s : State) (a : Word) (b : Byte) : (s.writeByte a b).sp = s.sp := rfl

@[simp] theorem State.writeByte_stack (s : State) (a : Word) (b : Byte) : (s.writeByte a b).stack = s.stack := rfl

@[simp] theorem State.writeByte_DT (s : State) (a : Word) (b : Byte) : (s.writeByte a b).DT = s.DT := rfl

@[simp] theorem State.writeByte_ST (s : State) (a : Word) (b : Byte) : (s.writeByte a b).ST = s.ST := rfl

@[simp] theorem State.writeByte_key (s : State) (a : Word) (b : Byte) : (s.writeByte a b).key = s.key := rfl

@[simp] theorem State.writeByte_fb (s : State) (a : Word) (b : Byte) : (s.writeByte a b).fb = s.fb := rfl

@[simp] theorem State.writeByte_mem (s : State) (a : Word) (b : Byte) :
    (s.writeByte a b).mem = s.mem.write (reduceAddr a) b := rfl

@[simp] theorem State.writeByte_currentInstruction (s : State) (a : Word) (b : Byte) :
    (s.writeByte a b).currentInstruction = s.currentInstruction := rfl

@[simp] theorem State.writeByte_draws (s : State) (a : Word) (b : Byte) : (s.writeByte a b).draws = s.draws := rfl

/-! ### loadRegs -/

@[simp] theorem State.loadRegs_pc (s : State) (x : Reg) : (s.loadRegs x).pc = s.pc := rfl

@[simp] theorem State.loadRegs_I (s : State) (x : Reg) : (s.loadRegs x).I = s.I := rfl

@[simp] theorem State.loadRegs_sp (s : State) (x : Reg) : (s.loadRegs x).sp = s.sp := rfl

@[simp] theorem State.loadRegs_stack (s : State) (x : Reg) : (s.loadRegs x).stack = s.stack := rfl

@[simp] theorem State.loadRegs_DT (s : State) (x : Reg) : (s.loadRegs x).DT = s.DT := rfl

@[simp] theorem State.loadRegs_ST (s : State) (x : Reg) : (s.loadRegs x).ST = s.ST := rfl

@[simp] theorem State.loadRegs_key (s : State) (x : Reg) : (s.loadRegs x).key = s.key := rfl

@[simp] theorem State.loadRegs_fb (s : State) (x : Reg) : (s.loadRegs x).fb = s.fb := rfl

@[simp] theorem State.loadRegs_mem (s : State) (x : Reg) : (s.loadRegs x).mem = s.mem := rfl

@[simp] theorem State.loadRegs_currentInstruction (s : State) (x : Reg) :
    (s.loadRegs x).currentInstruction = s.currentInstruction := rfl

@[simp] theorem State.loadRegs_draws (s : State) (x : Reg) : (s.loadRegs x).draws = s.draws := rfl

/-! ### advance -/

@[simp] theorem State.advance_V (s : State) (w : Word) : (s.advance w).V = s.V := rfl

@[simp] theorem State.advance_pc (s : State) (w : Word) : (s.advance w).pc = s.pc + 2 := rfl

@[simp] theorem State.advance_I (s : State) (w : Word) : (s.advance w).I = s.I := rfl

@[simp] theorem State.advance_sp (s : State) (w : Word) : (s.advance w).sp = s.sp := rfl

@[simp] theorem State.advance_stack (s : State) (w : Word) : (s.advance w).stack = s.stack := rfl

@[simp] theorem State.advance_DT (s : State) (w : Word) : (s.advance w).DT = s.DT := rfl

@[simp] theorem State.advance_ST (s : State) (w : Word) : (s.advance w).ST = s.ST := rfl

@[simp] theorem State.advance_key (s : State) (w : Word) : (s.advance w).key = s.key := rfl

@[simp] theorem State.advance_fb (s : State) (w : Word) : (s.advance w).fb = s.fb := rfl

@[simp] theorem State.advance_mem (s : State) (w : Word) : (s.advance w).mem = s.mem := rfl

@[simp] theorem State.advance_currentInstruction (s : State) (w : Word) : (s.advance w).currentInstruction = w := rfl

@[simp] theorem State.advance_draws (s : State) (w : Word) : (s.advance w).draws = s.draws := rfl

/-! ### tick -/

@[simp] theorem State.tick_V (s : State) : (s.tick).V = s.V := rfl

@[simp] theorem State.tick_pc (s : State) : (s.tick).pc = s.pc := rfl

@[simp] theorem State.tick_I (s : State) : (s.tick).I = s.I := rfl

@[simp] theorem State.tick_sp (s : State) : (s.tick).sp = s.sp := rfl

@[simp] theorem State.tick_stack (s : State) : (s.tick).stack = s.stack := rfl

@[simp] theorem State.tick_DT (s : State) : (s.tick).DT = tickTimer s.DT := rfl

@[simp] theorem State.tick_ST (s : State) : (s.tick).ST = tickTimer s.ST := rfl

@[simp] theorem State.tick_key (s : State) : (s.tick).key = s.key := rfl

@[simp] theorem State.tick_fb (s : State) : (s.tick).fb = s.fb := rfl

@[simp] theorem State.tick_mem (s : State) : (s.tick).mem = s.mem := rfl

@[simp] theorem State.tick_currentInstruction (s : State) : (s.tick).currentInstruction = s.currentInstruction := rfl

@[simp] theorem State.tick_draws (s : State) : (s.tick).draws = s.draws := rfl

/-! ### drawn -/

@[simp] theorem State.drawn_V (s : State) : (s.drawn).V = s.V := rfl

@[simp] theorem State.drawn_pc (s : State) : (s.drawn).pc = s.pc := rfl

@[simp] theorem State.drawn_I (s : State) : (s.drawn).I = s.I := rfl

@[simp] theorem State.drawn_sp (s : State) : (s.drawn).sp = s.sp := rfl

@[simp] theorem State.drawn_stack (s : State) : (s.drawn).stack = s.stack := rfl

@[simp] theorem State.drawn_DT (s : State) : (s.drawn).DT = s.DT := rfl

@[simp] theorem State.drawn_ST (s : State) : (s.drawn).ST = s.ST := rfl

@[simp] theorem State.drawn_key (s : State) : (s.drawn).key = s.key := rfl

@[simp] theorem State.drawn_fb (s : State) : (s.drawn).fb = s.fb := rfl

@[simp] theorem State.drawn_mem (s : State) : (s.drawn).mem = s.mem := rfl

@[simp] theorem State.drawn_currentInstruction (s : State) :
    (s.drawn).currentInstruction = s.currentInstruction := rfl

@[simp] theorem State.drawn_draws (s : State) : (s.drawn).draws = s.draws + 1 := rfl

/-! ### skipIf -/

@[simp] theorem State.skipIf_V (s : State) (c : Bool) : (s.skipIf c).V = s.V := by cases c <;> rfl

@[simp] theorem State.skipIf_I (s : State) (c : Bool) : (s.skipIf c).I = s.I := by cases c <;> rfl

@[simp] theorem State.skipIf_sp (s : State) (c : Bool) : (s.skipIf c).sp = s.sp := by cases c <;> rfl

@[simp] theorem State.skipIf_stack (s : State) (c : Bool) : (s.skipIf c).stack = s.stack := by cases c <;> rfl

@[simp] theorem State.skipIf_DT (s : State) (c : Bool) : (s.skipIf c).DT = s.DT := by cases c <;> rfl

@[simp] theorem State.skipIf_ST (s : State) (c : Bool) : (s.skipIf c).ST = s.ST := by cases c <;> rfl

@[simp] theorem State.skipIf_key (s : State) (c : Bool) : (s.skipIf c).key = s.key := by cases c <;> rfl

@[simp] theorem State.skipIf_fb (s : State) (c : Bool) : (s.skipIf c).fb = s.fb := by cases c <;> rfl

@[simp] theorem State.skipIf_mem (s : State) (c : Bool) : (s.skipIf c).mem = s.mem := by cases c <;> rfl

@[simp] theorem State.skipIf_currentInstruction (s : State) (c : Bool) :
    (s.skipIf c).currentInstruction = s.currentInstruction := by cases c <;> rfl

@[simp] theorem State.skipIf_draws (s : State) (c : Bool) : (s.skipIf c).draws = s.draws := by cases c <;> rfl

@[simp] theorem State.skipIf_pc (s : State) (c : Bool) : (s.skipIf c).pc = if c then s.pc + 2 else s.pc := by
  cases c <;> rfl

/-! ### setRegAndFlag -/

@[simp] theorem State.setRegAndFlag_pc (s : State) (o : Config.VfOrder) (x : Reg) (b f : Byte) :
    (s.setRegAndFlag o x b f).pc = s.pc := by cases o <;> rfl

@[simp] theorem State.setRegAndFlag_I (s : State) (o : Config.VfOrder) (x : Reg) (b f : Byte) :
    (s.setRegAndFlag o x b f).I = s.I := by cases o <;> rfl

@[simp] theorem State.setRegAndFlag_sp (s : State) (o : Config.VfOrder) (x : Reg) (b f : Byte) :
    (s.setRegAndFlag o x b f).sp = s.sp := by cases o <;> rfl

@[simp] theorem State.setRegAndFlag_stack (s : State) (o : Config.VfOrder) (x : Reg) (b f : Byte) :
    (s.setRegAndFlag o x b f).stack = s.stack := by cases o <;> rfl

@[simp] theorem State.setRegAndFlag_DT (s : State) (o : Config.VfOrder) (x : Reg) (b f : Byte) :
    (s.setRegAndFlag o x b f).DT = s.DT := by cases o <;> rfl

@[simp] theorem State.setRegAndFlag_ST (s : State) (o : Config.VfOrder) (x : Reg) (b f : Byte) :
    (s.setRegAndFlag o x b f).ST = s.ST := by cases o <;> rfl

@[simp] theorem State.setRegAndFlag_key (s : State) (o : Config.VfOrder) (x : Reg) (b f : Byte) :
    (s.setRegAndFlag o x b f).key = s.key := by cases o <;> rfl

@[simp] theorem State.setRegAndFlag_fb (s : State) (o : Config.VfOrder) (x : Reg) (b f : Byte) :
    (s.setRegAndFlag o x b f).fb = s.fb := by cases o <;> rfl

@[simp] theorem State.setRegAndFlag_mem (s : State) (o : Config.VfOrder) (x : Reg) (b f : Byte) :
    (s.setRegAndFlag o x b f).mem = s.mem := by cases o <;> rfl

@[simp] theorem State.setRegAndFlag_currentInstruction (s : State) (o : Config.VfOrder) (x : Reg) (b f : Byte) :
    (s.setRegAndFlag o x b f).currentInstruction = s.currentInstruction := by cases o <;> rfl

@[simp] theorem State.setRegAndFlag_draws (s : State) (o : Config.VfOrder) (x : Reg) (b f : Byte) :
    (s.setRegAndFlag o x b f).draws = s.draws := by cases o <;> rfl

/-- Under the spec's default the flag is written last (R141). -/
@[simp] theorem State.setRegAndFlag_flagLast_V (s : State) (x : Reg) (b f : Byte) :
    (s.setRegAndFlag .flagLast x b f).V = (s.V.set x.val b x.isLt).set 15 f := rfl

/-! ### pointAtGlyph -/

@[simp] theorem State.pointAtGlyph_V (s : State) (o : Config.FontDigitOor) (d : Byte) :
    (s.pointAtGlyph o d).V = s.V := by
  cases o <;> simp only [State.pointAtGlyph] <;> [rfl; (split <;> rfl)]

@[simp] theorem State.pointAtGlyph_pc (s : State) (o : Config.FontDigitOor) (d : Byte) :
    (s.pointAtGlyph o d).pc = s.pc := by
  cases o <;> simp only [State.pointAtGlyph] <;> [rfl; (split <;> rfl)]

@[simp] theorem State.pointAtGlyph_sp (s : State) (o : Config.FontDigitOor) (d : Byte) :
    (s.pointAtGlyph o d).sp = s.sp := by
  cases o <;> simp only [State.pointAtGlyph] <;> [rfl; (split <;> rfl)]

@[simp] theorem State.pointAtGlyph_stack (s : State) (o : Config.FontDigitOor) (d : Byte) :
    (s.pointAtGlyph o d).stack = s.stack := by
  cases o <;> simp only [State.pointAtGlyph] <;> [rfl; (split <;> rfl)]

@[simp] theorem State.pointAtGlyph_DT (s : State) (o : Config.FontDigitOor) (d : Byte) :
    (s.pointAtGlyph o d).DT = s.DT := by
  cases o <;> simp only [State.pointAtGlyph] <;> [rfl; (split <;> rfl)]

@[simp] theorem State.pointAtGlyph_ST (s : State) (o : Config.FontDigitOor) (d : Byte) :
    (s.pointAtGlyph o d).ST = s.ST := by
  cases o <;> simp only [State.pointAtGlyph] <;> [rfl; (split <;> rfl)]

@[simp] theorem State.pointAtGlyph_key (s : State) (o : Config.FontDigitOor) (d : Byte) :
    (s.pointAtGlyph o d).key = s.key := by
  cases o <;> simp only [State.pointAtGlyph] <;> [rfl; (split <;> rfl)]

@[simp] theorem State.pointAtGlyph_fb (s : State) (o : Config.FontDigitOor) (d : Byte) :
    (s.pointAtGlyph o d).fb = s.fb := by
  cases o <;> simp only [State.pointAtGlyph] <;> [rfl; (split <;> rfl)]

@[simp] theorem State.pointAtGlyph_mem (s : State) (o : Config.FontDigitOor) (d : Byte) :
    (s.pointAtGlyph o d).mem = s.mem := by
  cases o <;> simp only [State.pointAtGlyph] <;> [rfl; (split <;> rfl)]

@[simp] theorem State.pointAtGlyph_currentInstruction (s : State) (o : Config.FontDigitOor) (d : Byte) :
    (s.pointAtGlyph o d).currentInstruction = s.currentInstruction := by
  cases o <;> simp only [State.pointAtGlyph] <;> [rfl; (split <;> rfl)]

/-! ### storeBytes -/

@[simp] theorem State.storeBytes_V (s : State) (a : Word) (bs : List Byte) : (s.storeBytes a bs).V = s.V := by
  induction bs generalizing s a with
  | nil => rfl
  | cons b bs ih => simp [State.storeBytes, ih]

@[simp] theorem State.storeBytes_pc (s : State) (a : Word) (bs : List Byte) : (s.storeBytes a bs).pc = s.pc := by
  induction bs generalizing s a with
  | nil => rfl
  | cons b bs ih => simp [State.storeBytes, ih]

@[simp] theorem State.storeBytes_I (s : State) (a : Word) (bs : List Byte) : (s.storeBytes a bs).I = s.I := by
  induction bs generalizing s a with
  | nil => rfl
  | cons b bs ih => simp [State.storeBytes, ih]

@[simp] theorem State.storeBytes_sp (s : State) (a : Word) (bs : List Byte) : (s.storeBytes a bs).sp = s.sp := by
  induction bs generalizing s a with
  | nil => rfl
  | cons b bs ih => simp [State.storeBytes, ih]

@[simp] theorem State.storeBytes_stack (s : State) (a : Word) (bs : List Byte) : (s.storeBytes a bs).stack = s.stack := by
  induction bs generalizing s a with
  | nil => rfl
  | cons b bs ih => simp [State.storeBytes, ih]

@[simp] theorem State.storeBytes_DT (s : State) (a : Word) (bs : List Byte) : (s.storeBytes a bs).DT = s.DT := by
  induction bs generalizing s a with
  | nil => rfl
  | cons b bs ih => simp [State.storeBytes, ih]

@[simp] theorem State.storeBytes_ST (s : State) (a : Word) (bs : List Byte) : (s.storeBytes a bs).ST = s.ST := by
  induction bs generalizing s a with
  | nil => rfl
  | cons b bs ih => simp [State.storeBytes, ih]

@[simp] theorem State.storeBytes_key (s : State) (a : Word) (bs : List Byte) : (s.storeBytes a bs).key = s.key := by
  induction bs generalizing s a with
  | nil => rfl
  | cons b bs ih => simp [State.storeBytes, ih]

@[simp] theorem State.storeBytes_fb (s : State) (a : Word) (bs : List Byte) : (s.storeBytes a bs).fb = s.fb := by
  induction bs generalizing s a with
  | nil => rfl
  | cons b bs ih => simp [State.storeBytes, ih]

@[simp] theorem State.storeBytes_currentInstruction (s : State) (a : Word) (bs : List Byte) : (s.storeBytes a bs).currentInstruction = s.currentInstruction := by
  induction bs generalizing s a with
  | nil => rfl
  | cons b bs ih => simp [State.storeBytes, ih]

@[simp] theorem State.storeBytes_draws (s : State) (a : Word) (bs : List Byte) : (s.storeBytes a bs).draws = s.draws := by
  induction bs generalizing s a with
  | nil => rfl
  | cons b bs ih => simp [State.storeBytes, ih]

/-- Storing bytes changes memory and nothing else. -/
theorem State.storeBytes_eq (s : State) (a : Word) (bs : List Byte) :
    s.storeBytes a bs = { s with mem := (s.storeBytes a bs).mem } := by
  induction bs generalizing s a with
  | nil => rfl
  | cons b bs ih => rw [State.storeBytes, ih]; rfl

/-! ### Reading a register after a write -/

@[simp] theorem State.reg_setReg_self (s : State) (x : Reg) (b : Byte) : (s.setReg x b).reg x = b := by
  simp [State.reg]

theorem State.reg_setReg_ne (s : State) {x r : Reg} (b : Byte) (h : r ≠ x) : (s.setReg x b).reg r = s.reg r := by
  have : x.val ≠ r.val := fun e => h (Fin.ext e.symm)
  simp [State.reg, this]

/-- A state is determined by its registers when nothing else changes. -/
theorem State.setReg_eq (s : State) (x : Reg) (b : Byte) : s.setReg x b = { s with V := s.V.set x.val b x.isLt } := rfl

end Sys2Proof.Machine
end

