-- ==== Sys2Proof/Laws/Ops.lean ====
section
/-! SUPPORT. One lemma per shared operation that says once everything it can do. -/

namespace Sys2Proof.Machine

/-! ### Values as numbers -/

theorem flagByte_true : flagByte true = 1 := rfl
theorem flagByte_false : flagByte false = 0 := rfl

theorem sumByte_toNat (a b : Byte) : (sumByte a b).toNat = (a.toNat + b.toNat) % 256 := by simp [sumByte]

theorem differenceByte_toNat (a b : Byte) : (differenceByte a b).toNat = (a.toNat + 256 - b.toNat) % 256 := by
  simp [differenceByte]

theorem shiftRightByte_toNat (a : Byte) : (shiftRightByte a).toNat = a.toNat / 2 := by
  simp [shiftRightByte, Nat.shiftRight_eq_div_pow]

theorem shiftLeftByte_toNat (a : Byte) : (shiftLeftByte a).toNat = 2 * a.toNat % 256 := by
  simp [shiftLeftByte, Nat.shiftLeft_eq, Nat.mul_comm]

theorem lowBitFlag_toNat (a : Byte) : (lowBitFlag a).toNat = a.toNat % 2 := by
  simp [lowBitFlag, Nat.and_one_is_mod]

theorem highBitFlag_toNat (a : Byte) : (highBitFlag a).toNat = a.toNat / 128 := by
  have := a.isLt
  simp only [highBitFlag, BitVec.toNat_and, BitVec.toNat_ushiftRight, Nat.shiftRight_eq_div_pow]
  rw [show (1 : Byte).toNat = 1 from rfl, Nat.and_one_is_mod]
  omega

theorem tickTimer_toNat (t : Byte) : (tickTimer t).toNat = t.toNat - 1 := by
  revert t; decide

theorem zextAddr_toNat (a : Addr12) : (zextAddr a).toNat = a.toNat := by
  have := a.isLt
  simp [zextAddr]
  omega

theorem zextByte_toNat (b : Byte) : (zextByte b).toNat = b.toNat := by
  have := b.isLt
  simp [zextByte]
  omega

/-- The target of `JP V0, nnn` never wraps (R124). -/
theorem offsetTarget_toNat (s : State) (a : Addr12) : (offsetTarget s a).toNat = (s.reg 0).toNat + a.toNat := by
  have := a.isLt
  have := (s.reg 0).isLt
  simp only [offsetTarget, BitVec.toNat_add, zextByte_toNat, zextAddr_toNat]
  omega

theorem glyphAddr_toNat (d : Byte) : (glyphAddr d).toNat = 5 * d.toNat := by
  have := d.isLt
  simp only [glyphAddr, Config.fontBase, Config.glyphBytes, BitVec.toNat_add, BitVec.toNat_ofNat]
  simp
  omega

theorem keyIndex_val (b : Byte) : (keyIndex b).val = b.toNat % 16 := by
  simp only [keyIndex, Fin.val_ofNat, BitVec.toNat_and]
  rw [show (0xF : Byte).toNat = 2 ^ 4 - 1 from rfl, Nat.and_two_pow_sub_one_eq_mod]
  omega

/-- The address of byte `k` through `I`, reduced (R53, R163). -/
theorem reduceAddr_indexAddr (s : State) (k : Nat) : reduceAddr (indexAddr s k) = (s.I.toNat + k) % 4096 := by
  rw [reduceAddr_eq, indexAddr, BitVec.toNat_add, BitVec.toNat_ofNat]
  omega

theorem readByte_indexAddr (s : State) (k : Nat) :
    s.readByte (indexAddr s k) = s.mem.read ((s.I.toNat + k) % 4096) := by
  rw [State.readByte, reduceAddr_indexAddr]

/-! ### Keys -/

/-- The lowest pressed key: pressed, and no lower one is (R195). -/
theorem lowestKey_eq_some {key : Keypad} {k : Fin 16} :
    lowestKey key = some k ↔ key[k] = true ∧ ∀ j : Fin 16, j < k → key[j] = false := by
  rw [lowestKey, List.find?_eq_some_iff_append]
  constructor
  · rintro ⟨hk, as, bs, hab, has⟩
    refine ⟨hk, fun j hj => ?_⟩
    have hmem : j ∈ as ++ k :: bs := hab ▸ List.mem_finRange j
    have hsort : (as ++ k :: bs).Pairwise (· < ·) := hab ▸ List.pairwise_lt_finRange 16
    rcases List.mem_append.1 hmem with h | h
    · simpa using has j h
    · rcases List.mem_cons.1 h with rfl | h
      · exact absurd hj (lt_irrefl _)
      · exact absurd (List.rel_of_pairwise_cons (List.pairwise_append.1 hsort).2.1 h) (not_lt_of_gt hj)
  · rintro ⟨hk, hlow⟩
    obtain ⟨as, bs, hab⟩ := List.append_of_mem (List.mem_finRange k)
    refine ⟨hk, as, bs, hab, fun a ha => ?_⟩
    have hsort : (as ++ k :: bs).Pairwise (· < ·) := hab ▸ List.pairwise_lt_finRange 16
    have : a < k := (List.pairwise_append.1 hsort).2.2 a ha k List.mem_cons_self
    simp [hlow a this]

/-- No key is found exactly when none is pressed (R195). -/
theorem lowestKey_eq_none {key : Keypad} : lowestKey key = none ↔ ∀ k : Fin 16, key[k] = false := by
  simp [lowestKey]

/-! ### Registers loaded from memory -/

/-- LD Vx, [I] loads `V[0]`..`V[x]` and keeps the registers above (R167). -/
theorem State.loadRegs_V (s : State) (x k : Reg) :
    (s.loadRegs x).V[k] = if k ≤ x then s.readByte (indexAddr s k.val) else s.V[k] := by
  simp [State.loadRegs]

/-! ### The stack -/

/-- The push: nothing on a full stack, else the entry at `sp` written and `sp` one higher (R125). -/
theorem State.pushReturn_cases (s : State) :
    (s.sp.val = 16 ∧ s.pushReturn = none) ∨
    ∃ h : s.sp.val < 16, s.pushReturn =
      some { s with stack := s.stack.set s.sp.val s.pc h, sp := ⟨s.sp.val + 1, Nat.succ_lt_succ h⟩ } := by
  have : s.sp.val < 17 := s.sp.isLt
  by_cases h : s.sp.val < 16
  · exact .inr ⟨h, by simp [State.pushReturn, h]⟩
  · exact .inl ⟨by omega, by simp [State.pushReturn, h]⟩

/-- The pop: nothing on an empty stack, else `pc` from the entry below `sp` and `sp` one lower (R122). -/
theorem State.popReturn_cases (s : State) :
    (s.sp.val = 0 ∧ s.popReturn = none) ∨
    ∃ (_ : 0 < s.sp.val) (h : s.sp.val - 1 < 16), s.popReturn =
      some { s with sp := ⟨s.sp.val - 1, Nat.lt_succ_of_lt h⟩, pc := s.stack[s.sp.val - 1]'h } := by
  have : s.sp.val < 17 := s.sp.isLt
  by_cases h : s.sp.val = 0
  · exact .inl ⟨h, by simp [State.popReturn, h]⟩
  · exact .inr ⟨by omega, by omega, by simp [State.popReturn, h]⟩

/-! ### The fetch -/

/-- The fetched word as a number: big-endian, each address modulo 4096 (R101, R55, R53). -/
theorem fetchWord_toNat (s : State) :
    (fetchWord s).toNat =
      256 * (s.mem.read (s.pc.toNat % 4096)).toNat + (s.mem.read ((s.pc.toNat + 1) % 4096)).toNat := by
  have h : reduceAddr (s.pc + 1) = (s.pc.toNat + 1) % 4096 := by
    rw [reduceAddr_eq, BitVec.toNat_add]
    simp
  rw [fetchWord, wordOfBytes_toNat, State.readByte, State.readByte, reduceAddr_eq s.pc, h]

end Sys2Proof.Machine
end

