-- ==== Sys2Proof/Laws/PerInstr.lean ====
section
/-! SUPPORT. Statements about every instruction as syntax, one lemma per constructor of Instr. -/

namespace Sys2Proof.Laws

/-- The word of an instruction matches the instruction's own row of the opcode table (R76). -/
def EncodesInItsRow.Statement (i : Instr) : Prop := encode i &&& i.row.mask = i.row.matchBits

theorem EncodesInItsRow.cls : EncodesInItsRow.Statement .cls :=
  rfl

theorem EncodesInItsRow.ret : EncodesInItsRow.Statement .ret :=
  rfl

theorem EncodesInItsRow.sys (nnn : Addr12) : EncodesInItsRow.Statement (.sys nnn) :=
  (and_F000 _).trans (by rw [encode, fieldFamily_packNNN]; rfl)

theorem EncodesInItsRow.jp (nnn : Addr12) : EncodesInItsRow.Statement (.jp nnn) :=
  (and_F000 _).trans (by rw [encode, fieldFamily_packNNN]; rfl)

theorem EncodesInItsRow.call (nnn : Addr12) : EncodesInItsRow.Statement (.call nnn) :=
  (and_F000 _).trans (by rw [encode, fieldFamily_packNNN]; rfl)

theorem EncodesInItsRow.seImm (x : Reg) (kk : Byte) : EncodesInItsRow.Statement (.seImm x kk) :=
  (and_F000 _).trans (by rw [encode, fieldFamily_packXKK]; rfl)

theorem EncodesInItsRow.sneImm (x : Reg) (kk : Byte) : EncodesInItsRow.Statement (.sneImm x kk) :=
  (and_F000 _).trans (by rw [encode, fieldFamily_packXKK]; rfl)

theorem EncodesInItsRow.seReg (x y : Reg) : EncodesInItsRow.Statement (.seReg x y) :=
  (and_F00F _).trans (by rw [encode, fieldFamily_packXYN, fieldN_packXYN]; rfl)

theorem EncodesInItsRow.ldImm (x : Reg) (kk : Byte) : EncodesInItsRow.Statement (.ldImm x kk) :=
  (and_F000 _).trans (by rw [encode, fieldFamily_packXKK]; rfl)

theorem EncodesInItsRow.addImm (x : Reg) (kk : Byte) : EncodesInItsRow.Statement (.addImm x kk) :=
  (and_F000 _).trans (by rw [encode, fieldFamily_packXKK]; rfl)

theorem EncodesInItsRow.ldReg (x y : Reg) : EncodesInItsRow.Statement (.ldReg x y) :=
  (and_F00F _).trans (by rw [encode, fieldFamily_packXYN, fieldN_packXYN]; rfl)

theorem EncodesInItsRow.orReg (x y : Reg) : EncodesInItsRow.Statement (.orReg x y) :=
  (and_F00F _).trans (by rw [encode, fieldFamily_packXYN, fieldN_packXYN]; rfl)

theorem EncodesInItsRow.andReg (x y : Reg) : EncodesInItsRow.Statement (.andReg x y) :=
  (and_F00F _).trans (by rw [encode, fieldFamily_packXYN, fieldN_packXYN]; rfl)

theorem EncodesInItsRow.xorReg (x y : Reg) : EncodesInItsRow.Statement (.xorReg x y) :=
  (and_F00F _).trans (by rw [encode, fieldFamily_packXYN, fieldN_packXYN]; rfl)

theorem EncodesInItsRow.addReg (x y : Reg) : EncodesInItsRow.Statement (.addReg x y) :=
  (and_F00F _).trans (by rw [encode, fieldFamily_packXYN, fieldN_packXYN]; rfl)

theorem EncodesInItsRow.sub (x y : Reg) : EncodesInItsRow.Statement (.sub x y) :=
  (and_F00F _).trans (by rw [encode, fieldFamily_packXYN, fieldN_packXYN]; rfl)

theorem EncodesInItsRow.shr (x y : Reg) : EncodesInItsRow.Statement (.shr x y) :=
  (and_F00F _).trans (by rw [encode, fieldFamily_packXYN, fieldN_packXYN]; rfl)

theorem EncodesInItsRow.subn (x y : Reg) : EncodesInItsRow.Statement (.subn x y) :=
  (and_F00F _).trans (by rw [encode, fieldFamily_packXYN, fieldN_packXYN]; rfl)

theorem EncodesInItsRow.shl (x y : Reg) : EncodesInItsRow.Statement (.shl x y) :=
  (and_F00F _).trans (by rw [encode, fieldFamily_packXYN, fieldN_packXYN]; rfl)

theorem EncodesInItsRow.sneReg (x y : Reg) : EncodesInItsRow.Statement (.sneReg x y) :=
  (and_F00F _).trans (by rw [encode, fieldFamily_packXYN, fieldN_packXYN]; rfl)

theorem EncodesInItsRow.ldI (nnn : Addr12) : EncodesInItsRow.Statement (.ldI nnn) :=
  (and_F000 _).trans (by rw [encode, fieldFamily_packNNN]; rfl)

theorem EncodesInItsRow.jpV0 (nnn : Addr12) : EncodesInItsRow.Statement (.jpV0 nnn) :=
  (and_F000 _).trans (by rw [encode, fieldFamily_packNNN]; rfl)

theorem EncodesInItsRow.rnd (x : Reg) (kk : Byte) : EncodesInItsRow.Statement (.rnd x kk) :=
  (and_F000 _).trans (by rw [encode, fieldFamily_packXKK]; rfl)

theorem EncodesInItsRow.drw (x y : Reg) (n : Fin 16) : EncodesInItsRow.Statement (.drw x y n) :=
  (and_F000 _).trans (by rw [encode, fieldFamily_packXYN]; rfl)

theorem EncodesInItsRow.skp (x : Reg) : EncodesInItsRow.Statement (.skp x) :=
  (and_F0FF _).trans (by rw [encode, fieldFamily_packXKK, fieldKK_packXKK]; rfl)

theorem EncodesInItsRow.sknp (x : Reg) : EncodesInItsRow.Statement (.sknp x) :=
  (and_F0FF _).trans (by rw [encode, fieldFamily_packXKK, fieldKK_packXKK]; rfl)

theorem EncodesInItsRow.ldXDT (x : Reg) : EncodesInItsRow.Statement (.ldXDT x) :=
  (and_F0FF _).trans (by rw [encode, fieldFamily_packXKK, fieldKK_packXKK]; rfl)

theorem EncodesInItsRow.ldXK (x : Reg) : EncodesInItsRow.Statement (.ldXK x) :=
  (and_F0FF _).trans (by rw [encode, fieldFamily_packXKK, fieldKK_packXKK]; rfl)

theorem EncodesInItsRow.ldDTX (x : Reg) : EncodesInItsRow.Statement (.ldDTX x) :=
  (and_F0FF _).trans (by rw [encode, fieldFamily_packXKK, fieldKK_packXKK]; rfl)

theorem EncodesInItsRow.ldSTX (x : Reg) : EncodesInItsRow.Statement (.ldSTX x) :=
  (and_F0FF _).trans (by rw [encode, fieldFamily_packXKK, fieldKK_packXKK]; rfl)

theorem EncodesInItsRow.addI (x : Reg) : EncodesInItsRow.Statement (.addI x) :=
  (and_F0FF _).trans (by rw [encode, fieldFamily_packXKK, fieldKK_packXKK]; rfl)

theorem EncodesInItsRow.ldF (x : Reg) : EncodesInItsRow.Statement (.ldF x) :=
  (and_F0FF _).trans (by rw [encode, fieldFamily_packXKK, fieldKK_packXKK]; rfl)

theorem EncodesInItsRow.ldB (x : Reg) : EncodesInItsRow.Statement (.ldB x) :=
  (and_F0FF _).trans (by rw [encode, fieldFamily_packXKK, fieldKK_packXKK]; rfl)

theorem EncodesInItsRow.ldMemX (x : Reg) : EncodesInItsRow.Statement (.ldMemX x) :=
  (and_F0FF _).trans (by rw [encode, fieldFamily_packXKK, fieldKK_packXKK]; rfl)

theorem EncodesInItsRow.ldXMem (x : Reg) : EncodesInItsRow.Statement (.ldXMem x) :=
  (and_F0FF _).trans (by rw [encode, fieldFamily_packXKK, fieldKK_packXKK]; rfl)

end Sys2Proof.Laws
end

