-- ==== Sys2Proof/Laws/Screen.lean ====
section
/-! SUPPORT. What a toggle and a whole sprite do to a cell of the screen, and when they collide (R182). -/

namespace Sys2Proof.Machine

/-- A framebuffer is its cells. -/
theorem Framebuffer.ext_cells {f g : Framebuffer} (h : ∀ cx cy, f.cell cx cy = g.cell cx cy) : f = g := by
  apply Vector.ext
  intro i hi
  apply Vector.ext
  intro j hj
  exact h ⟨i, hi⟩ ⟨j, hj⟩

@[simp] theorem cell_blankScreen (cx : Fin Config.fbW) (cy : Fin Config.fbH) : blankScreen.cell cx cy = false := by
  simp [blankScreen, Framebuffer.cell]

/-- A toggle changes its own cell and no other. -/
theorem cell_toggleCell (acc : Framebuffer × Bool) (cx dx : Fin Config.fbW) (cy dy : Fin Config.fbH) :
    (toggleCell acc cx cy).1.cell dx dy =
      if dx = cx ∧ dy = cy then !acc.1.cell cx cy else acc.1.cell dx dy := by
  simp only [toggleCell, Framebuffer.cell, Fin.getElem_fin, Vector.getElem_set, Fin.ext_iff]
  by_cases hx : cx.val = dx.val
  · by_cases hy : cy.val = dy.val
    · simp [hx, hy]
    · have hy' : ¬ dy.val = cy.val := fun e => hy e.symm
      simp [hx, hy, hy']
  · have hx' : ¬ dx.val = cx.val := fun e => hx e.symm
    simp [hx, hx']

/-- A toggle collides when its cell was on, and a collision is kept. -/
theorem collision_toggleCell (acc : Framebuffer × Bool) (cx : Fin Config.fbW) (cy : Fin Config.fbH) :
    (toggleCell acc cx cy).2 = (acc.2 || acc.1.cell cx cy) := rfl

/-- Eight consecutive columns of one sprite row are eight different cells, as FB_W is above 8 (R182). -/
theorem cellX_inj {x0 : Byte} {c d : Nat} (hc : c < 8) (hd : d < 8) (h : cellX x0 c = cellX x0 d) : c = d := by
  have := congrArg Fin.val h
  simp only [cellX, Config.fbW] at this
  omega

/-- Fifteen consecutive sprite rows are fifteen different screen rows, as FB_H is above 15 (R182). -/
theorem cellY_inj {y0 : Byte} {c d : Nat} (hc : c < 16) (hd : d < 16) (h : cellY y0 c = cellY y0 d) : c = d := by
  have := congrArg Fin.val h
  simp only [cellY, Config.fbH] at this
  omega

/-! ### A whole sprite as the list of its cells -/

/-- The screen cells of the set bits of one sprite byte, column 0 first (R182). -/
def rowCells (x0 : Byte) (cy : Fin Config.fbH) (b : Byte) : List (Fin Config.fbW × Fin Config.fbH) :=
  ((List.range Config.spriteW).filter (spriteBit b)).map fun col => (cellX x0 col, cy)

/-- The screen cells of the set bits of a sprite, from sprite row `row` down (R182). -/
def spriteCells (x0 y0 : Byte) : Nat → List Byte → List (Fin Config.fbW × Fin Config.fbH)
  | _, [] => []
  | row, b :: bs => rowCells x0 (cellY y0 row) b ++ spriteCells x0 y0 (row + 1) bs

/-- Toggling a list of cells in turn. -/
def toggleCells (cs : List (Fin Config.fbW × Fin Config.fbH)) (acc : Framebuffer × Bool) : Framebuffer × Bool :=
  cs.foldl (fun acc c => toggleCell acc c.1 c.2) acc

/-- One sprite row is the toggling of its cells. -/
theorem drawRow_eq_toggleCells (x0 : Byte) (cy : Fin Config.fbH) (b : Byte) (acc : Framebuffer × Bool) :
    drawRow x0 cy b acc = toggleCells (rowCells x0 cy b) acc := by
  simp only [drawRow, rowCells, toggleCells, List.foldl_map, List.foldl_filter]

/-- A sprite is the toggling of its cells. -/
theorem drawRows_eq_toggleCells (x0 y0 : Byte) (row : Nat) (bs : List Byte) (acc : Framebuffer × Bool) :
    drawRows x0 y0 row bs acc = toggleCells (spriteCells x0 y0 row bs) acc := by
  induction bs generalizing row acc with
  | nil => rfl
  | cons b bs ih =>
    rw [drawRows, spriteCells, ih, drawRow_eq_toggleCells]
    simp only [toggleCells, List.foldl_append]

/-- Toggling different cells: each listed cell is turned over once, the others stay. -/
theorem cell_toggleCells {cs : List (Fin Config.fbW × Fin Config.fbH)} (hn : cs.Nodup) (acc : Framebuffer × Bool)
    (dx : Fin Config.fbW) (dy : Fin Config.fbH) :
    (toggleCells cs acc).1.cell dx dy = (acc.1.cell dx dy ^^ decide ((dx, dy) ∈ cs)) := by
  induction cs generalizing acc with
  | nil => simp [toggleCells]
  | cons c cs ih =>
    obtain ⟨hc, hn⟩ := List.nodup_cons.1 hn
    have := ih hn (toggleCell acc c.1 c.2)
    rw [show toggleCells (c :: cs) acc = toggleCells cs (toggleCell acc c.1 c.2) from rfl, this, cell_toggleCell]
    by_cases h : (dx, dy) = c
    · subst h; simp [hc]
    · have h' : ¬ (dx = c.1 ∧ dy = c.2) := fun e => h (Prod.ext e.1 e.2)
      simp [h, h']

/-- Toggling different cells collides exactly when one of them was on before. -/
theorem collision_toggleCells {cs : List (Fin Config.fbW × Fin Config.fbH)} (hn : cs.Nodup)
    (acc : Framebuffer × Bool) :
    (toggleCells cs acc).2 = true ↔ acc.2 = true ∨ ∃ c ∈ cs, acc.1.cell c.1 c.2 = true := by
  induction cs generalizing acc with
  | nil => simp [toggleCells]
  | cons c cs ih =>
    obtain ⟨hc, hn⟩ := List.nodup_cons.1 hn
    have := ih hn (toggleCell acc c.1 c.2)
    rw [show toggleCells (c :: cs) acc = toggleCells cs (toggleCell acc c.1 c.2) from rfl, this,
      collision_toggleCell]
    have key : ∀ d ∈ cs, (toggleCell acc c.1 c.2).1.cell d.1 d.2 = acc.1.cell d.1 d.2 := fun d hd => by
      rw [cell_toggleCell, if_neg]
      exact fun e => hc (by rwa [show c = d from Prod.ext e.1.symm e.2.symm])
    constructor
    · rintro (h | ⟨d, hd, h⟩)
      · rcases Bool.or_eq_true_iff.1 h with h | h
        · exact .inl h
        · exact .inr ⟨c, by simp, h⟩
      · exact .inr ⟨d, by simp [hd], by rwa [key d hd] at h⟩
    · rintro (h | ⟨d, hd, h⟩)
      · exact .inl (by simp [h])
      · rcases List.mem_cons.1 hd with rfl | hd
        · exact .inl (by simp [h])
        · exact .inr ⟨d, hd, by rwa [key d hd]⟩

/-- Which cells a sprite covers. -/
theorem mem_spriteCells {x0 y0 : Byte} {row : Nat} {bs : List Byte} {c : Fin Config.fbW × Fin Config.fbH} :
    c ∈ spriteCells x0 y0 row bs ↔
      ∃ k col, col < 8 ∧ c = (cellX x0 col, cellY y0 (row + k)) ∧ ∃ b, bs[k]? = some b ∧ spriteBit b col = true := by
  induction bs generalizing row with
  | nil => simp [spriteCells]
  | cons b bs ih =>
    rw [spriteCells, List.mem_append, ih]
    constructor
    · rintro (h | ⟨k, col, hcol, rfl, h⟩)
      · obtain ⟨col, hcol, rfl⟩ := List.mem_map.1 h
        obtain ⟨hr, hb⟩ := List.mem_filter.1 hcol
        exact ⟨0, col, by simpa using hr, rfl, b, rfl, hb⟩
      · exact ⟨k + 1, col, hcol, by rw [show row + 1 + k = row + (k + 1) by omega], by simpa using h⟩
    · rintro ⟨k, col, hcol, rfl, b', hb, hs⟩
      cases k with
      | zero =>
        have : b = b' := by simpa using hb
        subst this
        exact .inl (List.mem_map.2 ⟨col, List.mem_filter.2 ⟨by simpa using hcol, hs⟩, rfl⟩)
      | succ k => exact .inr ⟨k, col, hcol, by rw [show row + 1 + k = row + (k + 1) by omega], b', by simpa using hb, hs⟩

/-- The cells of a sprite of at most 15 rows are all different. -/
theorem nodup_spriteCells (x0 y0 : Byte) (row : Nat) (bs : List Byte) (h : row + bs.length ≤ 16) :
    (spriteCells x0 y0 row bs).Nodup := by
  induction bs generalizing row with
  | nil => simp [spriteCells]
  | cons b bs ih =>
    rw [spriteCells, List.nodup_append]
    refine ⟨?_, ih (row + 1) (by simp at h; omega), ?_⟩
    · refine List.Nodup.map_on ?_ (List.Nodup.filter _ List.nodup_range)
      intro c hc d hd e
      have hc := (List.mem_filter.1 hc).1
      have hd := (List.mem_filter.1 hd).1
      exact cellX_inj (by simpa using hc) (by simpa using hd) (congrArg Prod.fst e)
    · rintro c hc d hd rfl
      obtain ⟨col, -, rfl⟩ := List.mem_map.1 hc
      obtain ⟨k, col', -, e, b', hb, -⟩ := mem_spriteCells.1 hd
      have hk : k < bs.length := (List.getElem?_eq_some_iff.1 hb).1
      simp at h
      have := cellY_inj (c := row) (d := row + 1 + k) (by omega) (by omega) (congrArg Prod.snd e)
      omega


end Sys2Proof.Machine
end

