-- ==== Sys2Proof/Laws/Step.lean ====
section
/-! SUPPORT. What a step can do, said once: proofs cite these instead of unfolding `step`. -/

namespace Sys2Proof.Machine

/-- A step on a word that decodes to no operation (R103, R108). -/
theorem step_of_reject {s : State} {r : DecodeReject} (h : decode (fetchWord s) = .error r) :
    step s = .fault (.decodeError (fetchWord s) (s.advance (fetchWord s))) := by
  simp only [step, h, raise]

/-- A step on a word whose instruction succeeds (R100, R107). -/
theorem step_of_next {s t : State} {i : Instr} (h : decode (fetchWord s) = .ok i)
    (he : exec i (s.advance (fetchWord s)) = .next t) : step s = .next t.tick := by
  simp only [step, h, he]

/-- A step on a word whose instruction raises an error (R104, R108). -/
theorem step_of_fault {s : State} {i : Instr} {f : Fault} (h : decode (fetchWord s) = .ok i)
    (he : exec i (s.advance (fetchWord s)) = .fault f) : step s = .fault f := by
  simp only [step, h, he]

/-- Where a successful step comes from: a decoded instruction, its execute phase on the advanced state, and the
tick (R100). -/
theorem step_next_cases {s t : State} (h : step s = .next t) :
    ∃ i u, decode (fetchWord s) = .ok i ∧ exec i (s.advance (fetchWord s)) = .next u ∧ t = u.tick := by
  cases hd : decode (fetchWord s) with
  | error r => rw [step_of_reject hd] at h; cases h
  | ok i =>
    cases he : exec i (s.advance (fetchWord s)) with
    | next u => rw [step_of_next hd he] at h; cases h; exact ⟨i, u, rfl, he, rfl⟩
    | fault f => rw [step_of_fault hd he] at h; cases h
    | refused r => simp only [step, hd, he] at h; cases h

/-- Where an error of a step comes from: a word that decodes to nothing, or the execute phase (R108). -/
theorem step_fault_cases {s : State} {f : Fault} (h : step s = .fault f) :
    (∃ r, decode (fetchWord s) = .error r ∧ f = .decodeError (fetchWord s) (s.advance (fetchWord s))) ∨
    ∃ i, decode (fetchWord s) = .ok i ∧ exec i (s.advance (fetchWord s)) = .fault f := by
  cases hd : decode (fetchWord s) with
  | error r => rw [step_of_reject hd] at h; cases h; exact .inl ⟨r, rfl, rfl⟩
  | ok i =>
    cases he : exec i (s.advance (fetchWord s)) with
    | next u => rw [step_of_next hd he] at h; cases h
    | fault g => rw [step_of_fault hd he] at h; cases h; exact .inr ⟨i, rfl, he⟩
    | refused r => simp only [step, hd, he] at h; cases h

end Sys2Proof.Machine
end

