-- ==== Sys2Proof/Tests/Slice0.lean ====
section
/-! SUPPORT. The model's own tests. Expected results are the vectors of spec/95_test_vectors.md (named V<n> or S<n>)
and words written out from the table of R76 (30_encoding.md). -/

open Sys2Proof Sys2Proof.Machine

namespace Sys2Proof.Tests

/-! ## WellFormed refuses each ill-formed term -/

/-- The word of CLS is no SYS (R77). -/
theorem test_wf_refuses_sys_of_cls : (Instr.sys 0x0E0).wellFormed = false := by decide

/-- The word of RET is no SYS (R77). -/
theorem test_wf_refuses_sys_of_ret : (Instr.sys 0x0EE).wellFormed = false := by decide

theorem test_wf_accepts_sys : (Instr.sys 0x123).wellFormed = true := by decide

/-! ## Every constructor's decoding, from words written out (R76) -/

theorem test_decode_family0 :
    decode 0x00E0 = .ok .cls ∧ decode 0x00EE = .ok .ret ∧ decode 0x0000 = .ok (.sys 0) ∧
    decode 0x01E0 = .ok (.sys 0x1E0) := by decide

theorem test_decode_addresses :
    decode 0x1ABC = .ok (.jp 0xABC) ∧ decode 0x2300 = .ok (.call 0x300) ∧ decode 0xA2F0 = .ok (.ldI 0x2F0) ∧
    decode 0xB300 = .ok (.jpV0 0x300) := by decide

theorem test_decode_immediates :
    decode 0x3342 = .ok (.seImm 3 0x42) ∧ decode 0x4343 = .ok (.sneImm 3 0x43) ∧
    decode 0x6A2B = .ok (.ldImm 10 0x2B) ∧ decode 0x7003 = .ok (.addImm 0 0x03) ∧
    decode 0xC30F = .ok (.rnd 3 0x0F) := by decide

theorem test_decode_register_pairs :
    decode 0x5120 = .ok (.seReg 1 2) ∧ decode 0x9120 = .ok (.sneReg 1 2) ∧ decode 0x8010 = .ok (.ldReg 0 1) ∧
    decode 0x8011 = .ok (.orReg 0 1) ∧ decode 0x8012 = .ok (.andReg 0 1) ∧ decode 0x8013 = .ok (.xorReg 0 1) ∧
    decode 0x8014 = .ok (.addReg 0 1) ∧ decode 0x8015 = .ok (.sub 0 1) ∧ decode 0x80A6 = .ok (.shr 0 10) ∧
    decode 0x8017 = .ok (.subn 0 1) ∧ decode 0x820E = .ok (.shl 2 0) := by decide

theorem test_decode_draw : decode 0xD125 = .ok (.drw 1 2 5) := by decide

theorem test_decode_keys_timers :
    decode 0xE49E = .ok (.skp 4) ∧ decode 0xE4A1 = .ok (.sknp 4) ∧ decode 0xF107 = .ok (.ldXDT 1) ∧
    decode 0xF20A = .ok (.ldXK 2) ∧ decode 0xF015 = .ok (.ldDTX 0) ∧ decode 0xF018 = .ok (.ldSTX 0) := by decide

theorem test_decode_index_memory :
    decode 0xF51E = .ok (.addI 5) ∧ decode 0xF229 = .ok (.ldF 2) ∧ decode 0xF033 = .ok (.ldB 0) ∧
    decode 0xF255 = .ok (.ldMemX 2) ∧ decode 0xF265 = .ok (.ldXMem 2) := by decide

/-- V4 to V8: the reserved words of the other families decode to nothing (R78). -/
theorem test_decode_reserved :
    decode 0x5121 = .error .family5LowNibble ∧ decode 0x8018 = .error .family8Discriminator ∧
    decode 0x9121 = .error .family9LowNibble ∧ decode 0xE09F = .error .familyEDiscriminator ∧
    decode 0xF0FF = .error .familyFDiscriminator ∧ decodeBytes [0x60] = .error .truncated := by decide

/-- The table's words: one word, high byte first. -/
theorem test_table_word : decodeTableWord 16 0x8014 = some (.addReg 0 1) ∧ decodeTableWord 16 0x5121 = none := by
  decide

/-! ## Steps -/

/-- The reset state with one register set. -/
def with1 (x : Reg) (a : Byte) : State := State.reset.setReg x a

/-- The reset state with two registers set. -/
def with2 (x : Reg) (a : Byte) (y : Reg) (b : Byte) : State := (with1 x a).setReg y b

/-- The state that one step of the word `w` leaves. -/
def after (w : Nat) (s : State) : State := stateAfter s (step (s.withFetchWord 16 w))

/-- The error code of one step of the word `w`, 0 when it succeeds. -/
def errorOf (w : Nat) (s : State) : Nat :=
  match step (s.withFetchWord 16 w) with
  | .fault f => f.code
  | .next _ => 0
  | .refused _ => 5

/-- One key pressed. -/
def pressed (k : Fin 16) : Keypad := (Vector.replicate 16 false).set k true

/-- V1, V2, V3: the reserved class is an error that keeps the advance and ticks nothing. -/
theorem test_sys : errorOf 0x0123 State.reset = 1 ∧ (after 0x0123 { State.reset with DT := 5, ST := 2 }).DT = 5 ∧
    (after 0x0123 State.reset).pc = 0x202 ∧ (after 0x0123 State.reset).currentInstruction = 0x0123 := by decide

theorem test_empty_memory : (stateAfter State.reset (step State.reset)).pc = 0x202 := by decide

/-- V9: the fetch at 0xFFF takes its second byte from 0x000, the font's 0xF0. -/
theorem test_fetch_wraps :
    (stateAfter State.reset (step (State.writeByte { State.reset with pc := 0xFFF } 0xFFF 0x60))).V[0] = 0xF0 := by
  decide

/-- V11. -/
theorem test_ret : (after 0x00EE { State.reset with sp := 1, stack := State.reset.stack.set 0 0x346 }).pc = 0x346 ∧
    (after 0x00EE { State.reset with sp := 1, stack := State.reset.stack.set 0 0x346 }).sp = 0 := by decide

/-- V12. -/
theorem test_ret_underflow : errorOf 0x00EE State.reset = 3 ∧ (after 0x00EE State.reset).pc = 0x202 := by decide

/-- V13. -/
theorem test_jp : (after 0x1ABC State.reset).pc = 0xABC := by decide

/-- V15. -/
theorem test_call : (after 0x2300 State.reset).pc = 0x300 ∧ (after 0x2300 State.reset).sp = 1 ∧
    (after 0x2300 State.reset).stack[0] = 0x202 := by decide

/-- V16. -/
theorem test_call_overflow : errorOf 0x2300 { State.reset with sp := 16 } = 2 ∧
    (after 0x2300 { State.reset with sp := 16 }).pc = 0x202 := by decide

/-- V18: not reduced in `pc`. -/
theorem test_jpV0 : (after 0xBFFF (with1 0 0x02)).pc = 0x1001 := by decide

/-- V19, V20. -/
theorem test_seImm : (after 0x3342 (with1 3 0x42)).pc = 0x204 ∧ (after 0x3343 (with1 3 0x42)).pc = 0x202 := by decide

/-- V21, V22. -/
theorem test_sneImm : (after 0x4343 (with1 3 0x42)).pc = 0x204 ∧ (after 0x4342 (with1 3 0x42)).pc = 0x202 := by decide

/-- V23, V24. -/
theorem test_seReg : (after 0x5120 (with2 1 7 2 7)).pc = 0x204 ∧ (after 0x5120 (with2 1 7 2 8)).pc = 0x202 := by decide

/-- V25, V26. -/
theorem test_sneReg : (after 0x9120 (with2 1 7 2 8)).pc = 0x204 ∧ (after 0x9120 (with2 1 7 2 7)).pc = 0x202 := by decide

/-- V31. -/
theorem test_ldImm : (after 0x6F07 State.reset).V[15] = 0x07 := by decide

/-- V34. -/
theorem test_ldReg : (after 0x8010 (with1 1 0x55)).V[0] = 0x55 := by decide

/-- V32. -/
theorem test_addImm : (after 0x70FF (with2 0 0x01 15 0x55)).V[0] = 0x00 ∧
    (after 0x70FF (with2 0 0x01 15 0x55)).V[15] = 0x55 := by decide

/-- V35. -/
theorem test_or : (after 0x8011 ((with2 0 0x0F 1 0xF0).setReg 15 0x77)).V[0] = 0xFF ∧
    (after 0x8011 ((with2 0 0x0F 1 0xF0).setReg 15 0x77)).V[15] = 0x77 := by decide

/-- V36. -/
theorem test_and : (after 0x8012 (with2 0 0x3C 1 0x0F)).V[0] = 0x0C := by decide

/-- V37. -/
theorem test_xor : (after 0x8013 (with2 0 0x3C 1 0x0F)).V[0] = 0x33 := by decide

/-- S2. -/
theorem test_addReg : (after 0x8014 (with2 0 0xFF 1 0x02)).V[0] = 0x01 ∧
    (after 0x8014 (with2 0 0xFF 1 0x02)).V[15] = 1 := by decide

/-- V41, V42: VF as destination and as operand. -/
theorem test_addReg_VF : (after 0x8F14 (with2 15 0x10 1 0x20)).V[15] = 0 ∧
    (after 0x80F4 (with2 0 0xFF 15 0x01)).V[15] = 1 := by decide

/-- V44: equal operands give flag 0. -/
theorem test_sub_equal : (after 0x8015 (with2 0 0x05 1 0x05)).V[0] = 0 ∧
    (after 0x8015 (with2 0 0x05 1 0x05)).V[15] = 0 := by decide

/-- V43, V45. -/
theorem test_sub :
    (after 0x8015 (with2 0 0x0A 1 0x03)).V[15] = 1 ∧ (after 0x8015 (with2 0 0x00 1 0x01)).V[0] = 0xFF := by
  decide

/-- V50, V52. -/
theorem test_subn :
    (after 0x8017 (with2 0 0x03 1 0x0A)).V[0] = 0x07 ∧ (after 0x8017 (with2 0 0x01 1 0x00)).V[0] = 0xFF := by
  decide

/-- V48: `y` is ignored. -/
theorem test_shr : (after 0x80A6 (with2 0 0x03 10 0xFF)).V[0] = 0x01 ∧
    (after 0x80A6 (with2 0 0x03 10 0xFF)).V[15] = 1 := by decide

/-- V53, V54. -/
theorem test_shl : (after 0x820E (with1 2 0x81)).V[2] = 0x02 ∧ (after 0x820E (with1 2 0x7F)).V[15] = 0 := by decide

/-- V55, V56: the drawn byte under the mask. -/
theorem test_rnd : (after 0xC30F State.reset).V[3] = Config.randomByte 0 &&& 0x0F ∧
    (after 0xC300 State.reset).V[3] = 0 := ⟨rfl, BitVec.and_zero⟩

/-- V60. -/
theorem test_ldI : (after 0xA123 State.reset).I = 0x0123 := by decide

/-- V62. -/
theorem test_addI : (after 0xF01E { with1 0 0x02 with I := 0xFFFF }).I = 0x0001 := by decide

/-- V63, V64. -/
theorem test_ldF : (after 0xF229 (with1 2 0x0A)).I = 0x0032 ∧ (after 0xF229 (with1 2 0xFF)).I = 0x04FB := by decide

/-- S7. -/
theorem test_ldB : ((after 0xF033 { with1 0 234 with I := 0x300 }).mem.read 0x300,
    (after 0xF033 { with1 0 234 with I := 0x300 }).mem.read 0x301,
    (after 0xF033 { with1 0 234 with I := 0x300 }).mem.read 0x302) = (2, 3, 4) := by decide

/-- V66: the store wraps into the font. -/
theorem test_ldB_wraps : (after 0xF033 { with1 0 255 with I := 0xFFF }).mem.read 0x001 = 5 := by decide

/-- V68: the dump wraps, and `I` stays. -/
theorem test_ldMemX : (after 0xF155 { with2 0 0xAB 1 0xCD with I := 0xFFF }).mem.read 0x000 = 0xCD ∧
    (after 0xF155 { with2 0 0xAB 1 0xCD with I := 0xFFF }).I = 0xFFF := by decide

/-- V69: font bytes; registers above `x` stay. -/
theorem test_ldXMem : (after 0xF165 (with1 2 7)).V[0] = 0xF0 ∧ (after 0xF165 (with1 2 7)).V[1] = 0x90 ∧
    (after 0xF165 (with1 2 7)).V[2] = 7 := by decide

/-- V70. -/
theorem test_cls :
    (after 0x00E0 { State.reset with fb := State.reset.fb.set 5 (State.reset.fb[5].set 5 true) }).fb[5][5] =
    false := by decide

/-- V73: the origin wraps on both axes. -/
theorem test_drw_wraps : (after 0xD011 (with2 0 70 1 40)).fb[6][8] = true ∧
    (after 0xD011 (with2 0 70 1 40)).fb[10][8] = false ∧ (after 0xD011 (with2 0 70 1 40)).V[15] = 0 := by decide

/-- S4: the second draw collides. -/
theorem test_drw_collides : (after 0xD011 (after 0xD011 State.reset)).V[15] = 1 := by decide

/-- V82: the key index is reduced. -/
theorem test_skp : (after 0xE09E { with1 0 0x15 with key := pressed 5 }).pc = 0x204 ∧
    (after 0xE09E (with1 0 0x15)).pc = 0x202 := by decide

/-- V83, V84. -/
theorem test_sknp : (after 0xE0A1 { with1 0 5 with key := pressed 5 }).pc = 0x202 ∧
    (after 0xE0A1 (with1 0 5)).pc = 0x204 := by decide

/-- S9: the lowest key wins. -/
theorem test_ldXK : (after 0xF20A { State.reset with key := (pressed 7).set 10 true }).V[2] = 7 ∧
    (after 0xF20A { State.reset with key := (pressed 7).set 10 true }).pc = 0x202 := by decide

/-- V85: the wait goes back, and the timers tick. -/
theorem test_ldXK_waits : (after 0xF20A { State.reset with DT := 3 }).pc = 0x200 ∧
    (after 0xF20A { State.reset with DT := 3 }).DT = 2 := by decide

/-- V86. -/
theorem test_ldXDT : (after 0xF107 { State.reset with DT := 9 }).V[1] = 9 ∧
    (after 0xF107 { State.reset with DT := 9 }).DT = 8 := by decide

/-- V87, V88. -/
theorem test_ldDTX : (after 0xF015 (with1 0 5)).DT = 4 ∧ (after 0xF015 { State.reset with DT := 3 }).DT = 0 := by decide

/-- V89. -/
theorem test_ldSTX : (after 0xF018 (with1 0 1)).ST = 0 ∧ (after 0xF018 (with1 0 3)).ST = 2 := by decide

/-! ## Host actions -/

/-- V94: a load writes its bytes and moves nothing else. -/
theorem test_load :
    (HostAction.apply (.load [0x60, 0x01]) { State.reset with pc := 0x300 }).mem = [(0x200, 0x60), (0x201, 0x01)] ∧
    (HostAction.apply (.load [0x60, 0x01]) { State.reset with pc := 0x300 }).pc = 0x300 := by decide

/-- V90: reset undoes a step, but for the counter of draws. -/
theorem test_reset : HostAction.apply .reset (after 0xC30F State.reset) = { State.reset with draws := 1 } := rfl

/-- Equal memories are equal lists: writing the reset contents takes the entry out. -/
theorem test_canonical : (State.reset.writeByte 0x300 7).writeByte 0x300 0 = State.reset := rfl

/-! ## A state and operands that meet the hypotheses of each statement that has some -/

/-- The reset state about to run the word `w`. -/
def atWord (w : Nat) : State := State.reset.withFetchWord 16 w

theorem witness_DecodeOfEncodeIsIdentity : (Instr.sys 0x0E1).wellFormed = true := by decide

theorem witness_EncodeOfDecodeIsIdentity : decode 0x8FFE = .ok (.shl 15 15) := by decide

theorem witness_DecodeFollowsTheOpcodeTable :
    decode 0x00E0 = .ok .cls ∧ Instr.cls.row.fits 0x00E0 = true ∧ (Instr.sys 0).row.fits 0x00E0 = true ∧
    Instr.cls.row ≠ (Instr.sys 0).row := by decide

theorem witness_ReservedWordsRaiseDecodeError :
    reservedWord (fetchWord (atWord 0x00DF)) = true ∧ reservedWord (fetchWord (atWord 0x00E0)) = false := by decide

theorem witness_StepRunsTheDecodedInstruction :
    decode (fetchWord (atWord 0x5121)) = .error .family5LowNibble ∧
    (∃ f, exec .ret ((atWord 0x00EE).advance 0x00EE) = .fault f) ∧ decode (fetchWord (atWord 0x00EE)) = .ok .ret ∧
    (∃ t, exec .cls ((atWord 0x00E0).advance 0x00E0) = .next t) ∧ decode (fetchWord (atWord 0x00E0)) = .ok .cls :=
  ⟨by decide, ⟨_, rfl⟩, by decide, ⟨_, rfl⟩, by decide⟩

theorem witness_ErrorLeavesOnlyFetchEffects :
    (∃ f, step State.reset = .fault f) ∧ ∃ f, exec .ret State.reset = .fault f := ⟨⟨_, rfl⟩, ⟨_, rfl⟩⟩

theorem witness_TimersTickOncePerStep :
    decode (fetchWord (atWord 0xF015)) = .ok (.ldDTX 0) ∧ ∃ t, step (atWord 0xF015) = .next t := ⟨by decide, ⟨_, rfl⟩⟩

theorem witness_RetPopsOrUnderflows :
    0 < State.sp { State.reset with sp := 1 } ∧ 0 < State.sp { State.reset with sp := 16 } ∧ State.reset.sp.val = 0 := by
  decide

theorem witness_CallPushesOrOverflows :
    State.reset.sp.val < 16 ∧ (State.sp { State.reset with sp := 15 }).val < 16 ∧
    (State.sp { State.reset with sp := 16 }).val = 16 := by decide

theorem witness_SysAlwaysRaisesDecodeError : (0x000 : Addr12) ≠ 0x0E0 ∧ (0x000 : Addr12) ≠ 0x0EE := by decide

theorem witness_RegisterSkips : (1 : Fin 16) ≠ 0 ∧ (15 : Fin 16) ≠ 0 := by decide

theorem witness_LdFPointsAtTheGlyph : (0xF : Byte).toNat ≤ 0xF ∧ (0x0 : Byte).toNat ≤ 0xF := by decide

theorem witness_StoringInstructions : State.Inv { State.reset with I := 0xFFF } ∧ (15 : Reg) ≤ 15 := by decide

theorem witness_SpriteBitsAreMostSignificantFirst : (15 < 16 ∧ 7 < 8) ∧ (0 < 16 ∧ 0 < 8) := by decide

theorem witness_KeySkips : (5 : Fin 16).val = (with1 0 0x15).V[(0 : Reg)].toNat % 16 := by decide

theorem witness_KeyWaitStoresLowestKey :
    ((pressed 15)[(15 : Fin 16)] = true ∧ ∀ j : Fin 16, j < 15 → (pressed 15)[j] = false) ∧
    ∀ k : Fin 16, State.reset.key[k] = false := by decide

theorem witness_DelayTimerInstructions :
    fetchWord (atWord 0xF107) = wordXKK 0xF 1 0x07 ∧ fetchWord (atWord 0xF015) = wordXKK 0xF 0 0x15 := by decide

theorem witness_SoundTimerInstruction : fetchWord (atWord 0xF018) = wordXKK 0xF 0 0x18 := by decide

theorem witness_OnlyControlTransferWritesPc :
    decode (fetchWord (atWord 0x6A2B)) = .ok (.ldImm 10 0x2B) ∧ writesPc (.ldImm 10 0x2B) = false ∧
    (∃ t, exec (.ldImm 10 0x2B) State.reset = .next t) ∧ ∃ t, step (atWord 0x6A2B) = .next t :=
  ⟨by decide, rfl, ⟨_, rfl⟩, ⟨_, rfl⟩⟩

theorem witness_OnlyThreeInstructionsWriteIndex :
    writesIndex (.ldMemX 15) = false ∧ ∃ t, exec (.ldMemX 15) State.reset = .next t := ⟨rfl, ⟨_, rfl⟩⟩

theorem witness_OnlyCallAndRetUseTheStack :
    usesStack (.jp 0x300) = false ∧ ∃ t, exec (.jp 0x300) State.reset = .next t := ⟨rfl, ⟨_, rfl⟩⟩

theorem witness_OnlyDestinationsAndFlagsChange :
    (∃ t, exec (.addReg 0 1) State.reset = .next t) ∧ writesReg (.addReg 0 1) 2 = false ∧ (2 : Reg) ≠ 15 ∧
    (∃ t, exec (.orReg 0 1) State.reset = .next t) ∧ writesReg (.orReg 0 1) 15 = false ∧
    writesFlag (.orReg 0 1) = false := ⟨⟨_, rfl⟩, by decide, by decide, ⟨_, rfl⟩, by decide, rfl⟩

theorem witness_KeypadIsReadByThreeInstructionsAndNeverWritten :
    readsKeys (.ldXK 0) = true ∧ readsKeys .cls = false ∧ ∃ t, exec .cls State.reset = .next t :=
  ⟨rfl, rfl, ⟨_, rfl⟩⟩

theorem witness_OnlyClsAndDrwWriteTheScreen :
    writesScreen (.ldB 0) = false ∧ ∃ t, exec (.ldB 0) State.reset = .next t := ⟨rfl, ⟨_, rfl⟩⟩

/-- A storing form with an address outside its stored bytes, and a form that stores nothing. -/
theorem witness_MemoryChangesOnlyAtStoredAddresses :
    (∃ t, exec (.ldB 0) State.reset = .next t) ∧
    (∀ k, k < storedBytes (.ldB 0) → 3 ≠ reduceAddr (indexAddr State.reset k)) ∧
    (∃ t, exec (.drw 0 1 5) State.reset = .next t) ∧ storedBytes (.drw 0 1 5) = 0 :=
  ⟨⟨_, rfl⟩, by decide, ⟨_, rfl⟩, rfl⟩

theorem witness_StepKeepsTheInvariant :
    State.Inv (atWord 0xF033) ∧ (∃ t, step (atWord 0xF033) = .next t) ∧ State.reset.Inv ∧
    ∃ f, step State.reset = .fault f := ⟨by decide, ⟨_, rfl⟩, by decide, ⟨_, rfl⟩⟩

theorem witness_TooLargeImageChangesNothing : 3584 < (List.replicate 3585 (0 : Byte)).length := by
  rw [List.length_replicate]; decide

theorem witness_LoadCopiesTheImage : State.reset.Inv ∧ (List.replicate 3584 (0 : Byte)).length ≤ 3584 ∧
    ([] : List Byte).length ≤ 3584 := ⟨by decide, by rw [List.length_replicate], by decide⟩

/-- The dumped bytes 0xAB, 0xCD lie at 0xFFF and 0x000, and the fetch at 0xFFF reads both. -/
theorem witness_StoresAreSeenByTheNextFetch :
    ∃ s t u : State, s.Inv ∧ (0 : Reg).val + 1 = (1 : Reg).val ∧ (1 : Reg) ≤ 1 ∧
    exec (.ldMemX 1) s = .next t ∧ u.mem = t.mem ∧ u.pc.toNat % 4096 = (s.I.toNat + (0 : Reg).val) % 4096 :=
  ⟨{ with2 0 0xAB 1 0xCD with I := 0xFFF }, _,
   { stateAfter State.reset (exec (.ldMemX 1) { with2 0 0xAB 1 0xCD with I := 0xFFF }) with pc := 0x1FFF },
   by decide, rfl, by decide, rfl, rfl, by decide⟩

theorem witness_SoundTimerIsNotRead : (∃ t, step (atWord 0xF018) = .next t) ∧ ∃ f, step State.reset = .fault f :=
  ⟨⟨_, rfl⟩, ⟨_, rfl⟩⟩

/-- Two states that differ in a stale entry, about to run CALL and about to raise an error. -/
theorem witness_StaleStackEntriesAreNotObserved :
    SameButStale (atWord 0x2300) { atWord 0x2300 with stack := State.reset.stack.set 0 7 } ∧
    (∃ t, step (atWord 0x2300) = .next t) ∧
    SameButStale State.reset { State.reset with stack := State.reset.stack.set 0 7 } ∧
    ∃ f, step State.reset = .fault f :=
  ⟨⟨rfl, fun _ hk => absurd hk (Nat.not_lt_zero _)⟩, ⟨_, rfl⟩, ⟨rfl, fun _ hk => absurd hk (Nat.not_lt_zero _)⟩, ⟨_, rfl⟩⟩

theorem witness_CurrentInstructionIsWrittenAndNeverRead : ∃ t, exec .cls State.reset = .next t := ⟨_, rfl⟩

theorem witness_AccessesReduceTheirAddress :
    (∃ t, exec (.ldXMem 3) State.reset = .next t) ∧ ∃ t, exec (.drw 0 1 2) State.reset = .next t := ⟨⟨_, rfl⟩, ⟨_, rfl⟩⟩

/-- `CALL 0x206`, one `LD V0, 1` inside, then RET. -/
theorem witness_RetReturnsBehindItsCall : ∃ s t u : State, decode (fetchWord s) = .ok (.call 0x206) ∧ step s = .next t ∧
    Runs (fun m i => i = .ret → t.sp.val < m.sp.val) 1 t u ∧ u.sp = t.sp ∧ decode (fetchWord u) = .ok .ret :=
  ⟨State.reset.storeBytes 0x200 [0x22, 0x06, 0, 0, 0, 0, 0x60, 0x01, 0x00, 0xEE], _, _, by decide, rfl,
   .step (i := .ldImm 0 1) (by decide) (fun e => by cases e) rfl (.here _), by decide, by decide⟩

/-- `LD DT, V0`, one `LD V1, 1`, then `LD V2, DT`. -/
theorem witness_DelayTimerCountsStepsDown : ∃ s t u : State, decode (fetchWord s) = .ok (.ldDTX 0) ∧ step s = .next t ∧
    Runs (fun _ i => ∀ z, i ≠ .ldDTX z) 1 t u ∧ decode (fetchWord u) = .ok (.ldXDT 2) :=
  ⟨(with1 0 5).storeBytes 0x200 [0xF0, 0x15, 0x61, 0x01, 0xF2, 0x07], _, _, by decide, rfl,
   .step (i := .ldImm 1 1) (by decide) (fun z e => by cases e) rfl (.here _), by decide⟩

theorem witness_KeyWaitRepeatsUntilAKeyIsPressed : WaitsForKey (atWord 0xF20A) := ⟨⟨2, by decide⟩, by decide⟩

theorem witness_SelfJumpOnlyTicksTheTimers : AtSelfJump (atWord 0x1200) := ⟨0x200, by decide, by decide⟩

theorem witness_DrawingTwiceRestoresTheScreen : ∃ t u : State, exec (.drw 0 1 5) State.reset = .next t ∧
    exec (.drw 0 1 5) t = .next u ∧ t.V[(0 : Reg)] = State.reset.V[(0 : Reg)] ∧ t.V[(1 : Reg)] = State.reset.V[(1 : Reg)] :=
  ⟨_, _, rfl, rfl, by decide, by decide⟩

end Sys2Proof.Tests
end

section
/-! PROOFS. What the instructions leave alone and do not read among `pc`, the stack, the keypad and
`currentInstruction` (10_state.md).

One lemma carries the four statements: a patch of those fields goes through an execute phase unseen
(`exec_patch`), as long as the instruction does not use a field that the patch changes. Patching a field with the
value it already has then shows that the instruction does not write it. -/

namespace Sys2Proof.Machine

/-! ### Patches -/

/-- A change of the fields that few instructions use. -/
structure Patch where
  pc : Word → Word := id
  sp : Fin (Config.stackDepth + 1) → Fin (Config.stackDepth + 1) := id
  stack : Vector Word Config.stackDepth → Vector Word Config.stackDepth := id
  key : Keypad → Keypad := id
  currentInstruction : Word → Word := id

/-- The state with a patch applied to each of the patch's fields. -/
def State.patch (s : State) (p : Patch) : State :=
  { s with pc := p.pc s.pc, sp := p.sp s.sp, stack := p.stack s.stack, key := p.key s.key,
           currentInstruction := p.currentInstruction s.currentInstruction }

/-- The instruction uses no field that the patch changes. No instruction writes the keypad, so it is enough that
the patch keeps what is read, the keypad of `s`. -/
structure Patch.UnusedBy (p : Patch) (i : Instr) (s : State) : Prop where
  pc : writesPc i = true → p.pc = id
  stack : usesStack i = true → p.sp = id ∧ p.stack = id
  key : readsKeys i = true → p.key s.key = s.key

section
variable {p : Patch} (s : State)

theorem State.storeBytes_patch (a : Word) (bs : List Byte) :
    (s.patch p).storeBytes a bs = (s.storeBytes a bs).patch p := by
  induction bs generalizing s a with
  | nil => rfl
  | cons b bs ih => exact ih (s.writeByte a b) (a + 1)

theorem State.loadRegs_patch (x : Reg) : (s.patch p).loadRegs x = (s.loadRegs x).patch p := by
  simp only [State.loadRegs, State.patch, State.readByte, indexAddr]

theorem State.setPc_patch (hpc : p.pc = id) (w : Word) : (s.patch p).setPc w = (s.setPc w).patch p := by
  simp [State.patch, State.setPc, hpc]

theorem State.skipIf_patch (hpc : p.pc = id) (c : Bool) : (s.patch p).skipIf c = (s.skipIf c).patch p := by
  have hread : (s.patch p).pc = s.pc := by simp [State.patch, hpc]
  cases c with
  | false => rfl
  | true => simp [State.skipIf, hread, State.setPc_patch s hpc]

theorem State.pushReturn_patch (hpc : p.pc = id) (hsp : p.sp = id) (hstack : p.stack = id) :
    (s.patch p).pushReturn = s.pushReturn.map (·.patch p) := by
  by_cases h : s.sp.val < Config.stackDepth <;> simp [State.pushReturn, State.patch, hpc, hsp, hstack, h]

theorem State.popReturn_patch (hpc : p.pc = id) (hsp : p.sp = id) (hstack : p.stack = id) :
    (s.patch p).popReturn = s.popReturn.map (·.patch p) := by
  by_cases h : s.sp.val = 0 <;> simp [State.popReturn, State.patch, hpc, hsp, hstack, h]

/-! ### A patch goes through an execute phase -/

theorem execCall_patch {t : State} (hpc : p.pc = id) (hsp : p.sp = id) (hstack : p.stack = id) {nnn : Addr12}
    (h : execCall nnn s = .next t) : execCall nnn (s.patch p) = .next (t.patch p) := by
  unfold execCall at h ⊢
  rw [State.pushReturn_patch s hpc hsp hstack]
  cases hpush : s.pushReturn with
  | none => rw [hpush] at h; cases h
  | some u => rw [hpush] at h; cases h; exact congrArg Host.Outcome.next (u.setPc_patch hpc _)

theorem execRet_patch {t : State} (hpc : p.pc = id) (hsp : p.sp = id) (hstack : p.stack = id)
    (h : execRet s = .next t) : execRet (s.patch p) = .next (t.patch p) := by
  unfold execRet at h ⊢
  rw [State.popReturn_patch s hpc hsp hstack]
  cases hpop : s.popReturn with
  | none => rw [hpop] at h; cases h
  | some u => rw [hpop] at h; cases h; rfl

theorem execLdXK_patch {t : State} (hpc : p.pc = id) (hkey : p.key s.key = s.key) {x : Reg}
    (h : execLdXK x s = .next t) : execLdXK x (s.patch p) = .next (t.patch p) := by
  have hread : (s.patch p).key = s.key := hkey
  have hback : (s.patch p).pc = s.pc := by simp [State.patch, hpc]
  unfold execLdXK at h ⊢
  rw [hread, hback]
  cases hk : lowestKey s.key with
  | none => rw [hk] at h; cases h; exact congrArg Host.Outcome.next (s.setPc_patch hpc _)
  | some k => rw [hk] at h; cases h; rfl

end

/-- Noninterference of the execute phase: patching fields that the instruction does not use, before it or after
it, is the same. -/
theorem exec_patch {p : Patch} {i : Instr} {s t : State} (hp : p.UnusedBy i s) (h : exec i s = .next t) :
    exec i (s.patch p) = .next (t.patch p) := by
  obtain ⟨hpc, hstack, hkey⟩ := hp
  cases i
  case sys => cases h
  case ret =>
    obtain ⟨hsp, hstack⟩ := hstack rfl
    exact execRet_patch s (hpc rfl) hsp hstack h
  case call nnn =>
    obtain ⟨hsp, hstack⟩ := hstack rfl
    exact execCall_patch s (hpc rfl) hsp hstack h
  case jp | jpV0 => cases h; exact congrArg Host.Outcome.next (s.setPc_patch (hpc rfl) _)
  case seImm | sneImm | seReg | sneReg =>
    cases h; exact congrArg Host.Outcome.next (s.skipIf_patch (hpc rfl) _)
  case skp x | sknp x =>
    have hread : (s.patch p).key = s.key := hkey rfl
    simp only [exec, execSkp, execSknp, hread] at h ⊢
    cases h; exact congrArg Host.Outcome.next (s.skipIf_patch (hpc rfl) _)
  case ldXK => exact execLdXK_patch s (hpc rfl) (hkey rfl) h
  case ldXMem x =>
    obtain rfl : s.loadRegs x = t := Host.Outcome.next.inj h
    exact congrArg Host.Outcome.next (s.loadRegs_patch x)
  case ldB | ldMemX => cases h; exact congrArg Host.Outcome.next (s.storeBytes_patch _ _)
  -- no other instruction uses a field of a patch
  all_goals cases h; rfl

/-- What a patch with the values of `s` shows: an instruction that does not use its fields does not write them
either, since the patch leaves the result as it is too. -/
theorem patch_eq_self_of_exec {p : Patch} {i : Instr} {s t : State} (hs : s.patch p = s) (hp : p.UnusedBy i s)
    (h : exec i s = .next t) : t.patch p = t := by
  have hpatched := exec_patch hp h
  rw [hs, h] at hpatched
  exact (Host.Outcome.next.inj hpatched).symm

/-! ### What an execute phase does not write -/

section
variable {i : Instr} {s t : State} (h : exec i s = .next t)
include h

theorem exec_pc_of_not_writesPc (hi : writesPc i = false) : t.pc = s.pc := by
  have hp : Patch.UnusedBy { pc := fun _ => s.pc } i s := by constructor <;> simp [hi]
  exact (congrArg State.pc (patch_eq_self_of_exec rfl hp h)).symm

theorem exec_stack_of_not_usesStack (hi : usesStack i = false) : t.stack = s.stack := by
  have hp : Patch.UnusedBy { stack := fun _ => s.stack } i s := by constructor <;> simp [hi]
  exact (congrArg State.stack (patch_eq_self_of_exec rfl hp h)).symm

theorem exec_sp_of_not_usesStack (hi : usesStack i = false) : t.sp = s.sp := by
  have hp : Patch.UnusedBy { sp := fun _ => s.sp } i s := by constructor <;> simp [hi]
  exact (congrArg State.sp (patch_eq_self_of_exec rfl hp h)).symm

theorem exec_key : t.key = s.key := by
  have hp : Patch.UnusedBy { key := fun _ => s.key } i s := by constructor <;> simp
  exact (congrArg State.key (patch_eq_self_of_exec rfl hp h)).symm

theorem exec_currentInstruction : t.currentInstruction = s.currentInstruction := by
  have hp : Patch.UnusedBy { currentInstruction := fun _ => s.currentInstruction } i s := by constructor <;> simp
  exact (congrArg State.currentInstruction (patch_eq_self_of_exec rfl hp h)).symm

end

/-! ### Where a step ends -/

/-- An execute phase succeeds, or raises an error that keeps its state as it was; it is never refused (R104, R108). -/
theorem exec_next_or_fault (i : Instr) (s : State) :
    (∃ t, exec i s = .next t) ∨ ∃ f, exec i s = .fault f ∧ f.left = s := by
  cases i
  case sys => exact .inr ⟨_, rfl, rfl⟩
  case ret =>
    cases hpop : s.popReturn with
    | none => exact .inr ⟨.stackUnderflow s, by simp only [exec, execRet, hpop, raise], rfl⟩
    | some u => exact .inl ⟨u, by simp only [exec, execRet, hpop]⟩
  case call nnn =>
    cases hpush : s.pushReturn with
    | none => exact .inr ⟨.stackOverflow s, by simp only [exec, execCall, hpush, raise], rfl⟩
    | some u => exact .inl ⟨u.setPc (zextAddr nnn), by simp only [exec, execCall, hpush]⟩
  case ldXK x =>
    cases hk : lowestKey s.key with
    | none => exact .inl ⟨s.setPc (s.pc - 2), by simp only [exec, execLdXK, hk]⟩
    | some k => exact .inl ⟨s.setReg x (BitVec.ofNat 8 k.val), by simp only [exec, execLdXK, hk]⟩
  all_goals exact .inl ⟨_, rfl⟩

/-- A step leaves the advanced state when it ends with an error, and the ticked result of an execute phase on the
advanced state when it succeeds (R100, R108). -/
theorem stateAfter_step_cases (s : State) :
    stateAfter s (step s) = s.advance (fetchWord s) ∨
    ∃ i t, exec i (s.advance (fetchWord s)) = .next t ∧ stateAfter s (step s) = t.tick := by
  cases hd : decode (fetchWord s) with
  | error r => exact .inl (by rw [step_of_reject hd]; rfl)
  | ok i =>
    obtain ⟨t, ht⟩ | ⟨f, hf, hleft⟩ := exec_next_or_fault i (s.advance (fetchWord s))
    · exact .inr ⟨i, t, ht, by rw [step_of_next hd ht]; rfl⟩
    · exact .inl (by rw [step_of_fault hd hf]; exact hleft)

theorem stateAfter_step_key (s : State) : (stateAfter s (step s)).key = s.key := by
  obtain h | ⟨i, t, ht, h⟩ := stateAfter_step_cases s
  · rw [h, State.advance_key]
  · rw [h, State.tick_key, exec_key ht, State.advance_key]

theorem stateAfter_step_currentInstruction (s : State) :
    (stateAfter s (step s)).currentInstruction = fetchWord s := by
  obtain h | ⟨i, t, ht, h⟩ := stateAfter_step_cases s
  · rw [h, State.advance_currentInstruction]
  · rw [h, State.tick_currentInstruction, exec_currentInstruction ht, State.advance_currentInstruction]

/-! ### SKP, SKNP and LD Vx, K read the keypad -/

/-- The latch with every key pressed. -/
def allPressed : Keypad := Vector.replicate 16 true

/-- Each of the three leaves another `pc` from the reset state, where no key is pressed, than from the reset state
with every key pressed. -/
theorem exec_allPressed_ne_of_readsKeys {i : Instr} (hi : readsKeys i = true) :
    ∃ t, exec i State.reset = .next t ∧
      exec i { State.reset with key := allPressed } ≠ .next { t with key := allPressed } := by
  have hpc {t u : State} (h : t.pc ≠ u.pc) : (.next t : Host.Outcome State Fault Refusal) ≠ .next u :=
    fun e => h (congrArg State.pc (Host.Outcome.next.inj e))
  cases i
  case skp x | sknp x | ldXK x => exact ⟨_, rfl, hpc (by revert x; decide)⟩
  all_goals cases hi

end Sys2Proof.Machine

open Sys2Proof Sys2Proof.Machine

/-- Settles O37: `pc` patched to its own value goes unseen through an instruction that does not write it, and the
step has advanced it by 2. -/
theorem onlyControlTransferWritesPc : Obligations.OnlyControlTransferWritesPc := by
  refine ⟨fun i s t hi h => exec_pc_of_not_writesPc h hi, fun i s t hd hi h => ?_⟩
  obtain ⟨j, u, hj, hu, rfl⟩ := step_next_cases h
  obtain rfl : j = i := Except.ok.inj (hj.symm.trans hd)
  rw [State.tick_pc, exec_pc_of_not_writesPc hu hi, State.advance_pc]
  exact BitVec.eq_of_toNat_eq (by simp)

/-- Settles O39: a patch of the stack and its pointer goes unseen through every instruction but CALL and RET. -/
theorem onlyCallAndRetUseTheStack : Obligations.OnlyCallAndRetUseTheStack := by
  intro i s t hi h
  refine ⟨exec_stack_of_not_usesStack h hi, exec_sp_of_not_usesStack h hi, fun stack' sp' => ?_⟩
  have hp : Patch.UnusedBy { stack := fun _ => stack', sp := fun _ => sp' } i s := by constructor <;> simp [hi]
  exact exec_patch hp h

/-- Settles O41: a patch of the keypad goes unseen through every instruction but the three readers, and each of
those tells no key pressed from every key pressed. -/
theorem keypadIsReadByThreeInstructionsAndNeverWritten :
    Obligations.KeypadIsReadByThreeInstructionsAndNeverWritten := by
  refine ⟨stateAfter_step_key, fun _ _ => rfl, fun i hi => ?_, fun i s t keys hi h => ⟨exec_key h, ?_⟩⟩
  · obtain ⟨t, ht, hne⟩ := exec_allPressed_ne_of_readsKeys hi
    exact ⟨State.reset, t, allPressed, ht, hne⟩
  · have hp : Patch.UnusedBy { key := fun _ => keys } i s := by constructor <;> simp [hi]
    exact exec_patch hp h

/-- Settles O54: the fetch overwrites `currentInstruction` without looking at it, and a patch of it goes unseen
through every execute phase. -/
theorem currentInstructionIsWrittenAndNeverRead : Obligations.CurrentInstructionIsWrittenAndNeverRead := by
  refine ⟨stateAfter_step_currentInstruction, fun s w => rfl, fun i s t w h => ?_⟩
  have hp : Patch.UnusedBy { currentInstruction := fun _ => w } i s := by constructor <;> simp
  exact exec_patch hp h
end

section
/-! PROOFS. The step cycle (40_step_cycle.md): which errors an execute phase raises (R104), and what it leaves in
the timers before the tick (R105). -/

namespace Sys2Proof.Machine

/-! ### The outcome of an execute phase that has more than one -/

/-- The word that SYS reports, as R71 writes it. -/
theorem zextAddr_eq_wordNNN (nnn : Addr12) : zextAddr nnn = wordNNN 0 nnn :=
  BitVec.eq_of_toNat_eq (by rw [zextAddr_toNat, wordNNN, BitVec.toNat_ofNat]; omega)

theorem execCall_fault_iff {nnn : Addr12} {s : State} {f : Fault} :
    execCall nnn s = .fault f ↔ s.sp.val = 16 ∧ f = .stackOverflow s := by
  obtain ⟨hfull, hpush⟩ | ⟨hroom, hpush⟩ := s.pushReturn_cases
  · simp [execCall, hpush, raise, hfull, eq_comm]
  · simp [execCall, hpush, hroom.ne]

theorem execRet_fault_iff {s : State} {f : Fault} :
    execRet s = .fault f ↔ s.sp.val = 0 ∧ f = .stackUnderflow s := by
  obtain ⟨hempty, hpop⟩ | ⟨hpos, _, hpop⟩ := s.popReturn_cases
  · simp [execRet, hpop, raise, hempty, eq_comm]
  · simp [execRet, hpop, hpos.ne']

/-- LD Vx, K writes a register or sets `pc` back (R195, R196). -/
theorem execLdXK_cases (x : Reg) (s : State) :
    (∃ b, execLdXK x s = .next (s.setReg x b)) ∨ execLdXK x s = .next (s.setPc (s.pc - 2)) := by
  cases hk : lowestKey s.key with
  | some k => exact .inl ⟨_, by simp only [execLdXK, hk]; rfl⟩
  | none => exact .inr (by simp only [execLdXK, hk])

/-! ### Errors -/

/-- The errors of an execute phase are the three of R104. -/
theorem exec_fault_iff {i : Instr} {s : State} {f : Fault} : exec i s = .fault f ↔
    (∃ nnn, i = .sys nnn ∧ f = .decodeError (wordNNN 0 nnn) s) ∨
    (∃ nnn, i = .call nnn ∧ s.sp.val = 16 ∧ f = .stackOverflow s) ∨
    (i = .ret ∧ s.sp.val = 0 ∧ f = .stackUnderflow s) := by
  constructor
  · intro h
    cases i
    case sys nnn => cases h; exact .inl ⟨nnn, rfl, by rw [zextAddr_eq_wordNNN]⟩
    case call nnn => exact .inr (.inl ⟨nnn, rfl, execCall_fault_iff.1 h⟩)
    case ret => exact .inr (.inr ⟨rfl, execRet_fault_iff.1 h⟩)
    case ldXK x =>
      obtain ⟨b, hb⟩ | hb := execLdXK_cases x s
      · cases hb.symm.trans h
      · cases hb.symm.trans h
    -- every other instruction succeeds in every state
    all_goals cases h
  · rintro (⟨nnn, rfl, rfl⟩ | ⟨nnn, rfl, hf⟩ | ⟨rfl, hf⟩)
    · rw [← zextAddr_eq_wordNNN]; rfl
    · exact execCall_fault_iff.2 hf
    · exact execRet_fault_iff.2 hf

theorem exec_ne_refused (i : Instr) (s : State) (r : Refusal) : exec i s ≠ .refused r := by
  obtain ⟨t, h⟩ | ⟨f, h, -⟩ := exec_next_or_fault i s
  · rw [h]; nofun
  · rw [h]; nofun

theorem step_ne_refused (s : State) (r : Refusal) : step s ≠ .refused r := by
  cases hd : decode (fetchWord s) with
  | error e => rw [step_of_reject hd]; nofun
  | ok i =>
    obtain ⟨t, h⟩ | ⟨f, h, -⟩ := exec_next_or_fault i (s.advance (fetchWord s))
    · rw [step_of_next hd h]; nofun
    · rw [step_of_fault hd h]; nofun

/-- ImageTooLarge belongs to the host's load (R214, R244). -/
theorem step_ne_imageTooLarge (s t : State) : step s ≠ .fault (.imageTooLarge t) := by
  intro h
  obtain ⟨_, -, hf⟩ | ⟨i, -, he⟩ := step_fault_cases h
  · cases hf
  · obtain ⟨_, -, hf⟩ | ⟨_, -, -, hf⟩ | ⟨-, -, hf⟩ := exec_fault_iff.1 he <;> cases hf

/-! ### Timers -/

/-- A timer survives every execute phase but the one of its own LD (R198, R199). -/
theorem exec_keeps_timers {i : Instr} {s t : State} (h : exec i s = .next t) :
    ((∀ x, i ≠ .ldDTX x) → t.DT = s.DT) ∧ ((∀ x, i ≠ .ldSTX x) → t.ST = s.ST) := by
  cases i
  case ldDTX x => cases h; exact ⟨fun hne => absurd rfl (hne x), fun _ => rfl⟩
  case ldSTX x => cases h; exact ⟨fun _ => rfl, fun hne => absurd rfl (hne x)⟩
  case sys => cases h
  case ret =>
    simp only [exec, execRet] at h
    obtain ⟨-, hpop⟩ | ⟨-, _, hpop⟩ := s.popReturn_cases
    · rw [hpop] at h; cases h
    · rw [hpop] at h; cases h; exact ⟨fun _ => rfl, fun _ => rfl⟩
  case call =>
    simp only [exec, execCall] at h
    obtain ⟨-, hpush⟩ | ⟨_, hpush⟩ := s.pushReturn_cases
    · rw [hpush] at h; cases h
    · rw [hpush] at h; cases h; exact ⟨fun _ => rfl, fun _ => rfl⟩
  case ldXK x =>
    obtain ⟨b, hb⟩ | hb := execLdXK_cases x s
    · cases hb.symm.trans h; exact ⟨fun _ => rfl, fun _ => rfl⟩
    · cases hb.symm.trans h; exact ⟨fun _ => rfl, fun _ => rfl⟩
  -- the others write through operations whose field lemmas say that they keep both timers
  all_goals cases h; simp

end Sys2Proof.Machine

open Sys2Proof Sys2Proof.Machine

/-- Settles O8: every instruction but the three succeeds in every state, and these err under their own condition;
a step's errors are these or the DecodeError of a word that decodes to nothing. -/
theorem onlyThreeExecuteErrors : Obligations.OnlyThreeExecuteErrors :=
  ⟨fun _ _ _ => exec_fault_iff, exec_ne_refused, fun s t r => ⟨step_ne_refused s r, step_ne_imageTooLarge s t⟩⟩

/-- Settles O9: the execute phase sets a timer only by the timer's own LD, from a register that the advance has
kept, and the tick takes one off. -/
theorem timersTickOncePerStep : Obligations.TimersTickOncePerStep := by
  intro s t i hd h
  obtain ⟨j, u, hj, hu, rfl⟩ := step_next_cases h
  obtain rfl : j = i := Except.ok.inj (hj.symm.trans hd)
  obtain ⟨hDT, hST⟩ := exec_keeps_timers hu
  rw [State.tick_DT, State.tick_ST, tickTimer_toNat, tickTimer_toNat]
  constructor
  · split
    · cases hu; rfl
    · rename_i hne; rw [hDT hne, State.advance_DT]
  · split
    · cases hu; rfl
    · rename_i hne; rw [hST hne, State.advance_ST]
end

section
/-! PROOFS. Instructions that repeat themselves: a step that sets `pc` back to where it was only ticks the timers
(R110, R196), and so does any run of such steps. -/

namespace Sys2Proof.Machine

/-- `s` after `k` steps that do nothing of their own: each fetches the same word (R101) and ticks (R105). -/
def State.idleFor (s : State) (k : Nat) : State :=
  { s with currentInstruction := fetchWord s, DT := BitVec.ofNat 8 (s.DT.toNat - k),
           ST := BitVec.ofNat 8 (s.ST.toNat - k) }

theorem tickTimer_eq_ofNat (t : Byte) : tickTimer t = BitVec.ofNat 8 (t.toNat - 1) :=
  BitVec.eq_of_toNat_eq (by rw [tickTimer_toNat, BitVec.toNat_ofNat]; omega)

/-- Counting down by `j` and then by `k` stops at 0 where counting down by `j + k` does. -/
theorem ofNat_toNat_sub_sub (t : Byte) (j k : Nat) :
    BitVec.ofNat 8 ((BitVec.ofNat 8 (t.toNat - j)).toNat - k) = BitVec.ofNat 8 (t.toNat - (j + k)) := by
  rw [BitVec.toNat_ofNat, Nat.mod_eq_of_lt (by omega), Nat.sub_sub]

/-- The fetched word does not depend on the fields that idling writes. -/
theorem State.idleFor_idleFor (s : State) (j k : Nat) : (s.idleFor j).idleFor k = s.idleFor (j + k) := by
  have hDT := ofNat_toNat_sub_sub s.DT j k
  have hST := ofNat_toNat_sub_sub s.ST j k
  simp only [State.idleFor, hDT, hST]
  rfl

/-- A step whose execute phase only sets `pc` back to the fetched instruction idles. -/
theorem State.tick_setPc_advance (s : State) : ((s.advance (fetchWord s)).setPc s.pc).tick = s.idleFor 1 := by
  simp only [State.tick, State.idleFor, tickTimer_eq_ofNat]
  rfl

theorem run_succ_of_next {M : Host.Core} {s t : M.State} (h : M.step s = .next t) (k : Nat) :
    M.run (k + 1) s = M.run k t := by
  simp only [Host.Core.run, h]

/-- If a property makes a step idle and idling keeps it, every run from a state that has it idles throughout. -/
theorem run_eq_idleFor {P : State → Prop} (hstep : ∀ s, P s → step s = .next (s.idleFor 1))
    (hkeep : ∀ s, P s → P (s.idleFor 1)) {s : State} (h : P s) (k : Nat) :
    Host.Core.run Sys2Proof.core (k + 1) s = .next (s.idleFor (k + 1)) := by
  induction k generalizing s with
  | zero => exact run_succ_of_next (M := Sys2Proof.core) (hstep s h) 0
  | succ k ih =>
    calc Host.Core.run Sys2Proof.core (k + 2) s
      _ = Host.Core.run Sys2Proof.core (k + 1) (s.idleFor 1) :=
        run_succ_of_next (M := Sys2Proof.core) (hstep s h) (k + 1)
      _ = .next ((s.idleFor 1).idleFor (k + 1)) := ih (hkeep s h)
      _ = .next (s.idleFor (k + 2)) := by rw [State.idleFor_idleFor, Nat.add_comm 1]

/-- With no key pressed LD Vx, K sets `pc` back by the two of the advance (R195). -/
theorem execLdXK_of_no_key {s : State} (h : ∀ k : Fin 16, s.key[k] = false) (x : Reg) :
    execLdXK x s = .next (s.setPc (s.pc - 2)) := by
  simp only [execLdXK, lowestKey_eq_none.2 h]

theorem WaitsForKey.step_eq {s : State} (h : WaitsForKey s) : step s = .next (s.idleFor 1) := by
  obtain ⟨⟨x, hd⟩, hkey⟩ := h
  have he := execLdXK_of_no_key (s := s.advance (fetchWord s)) hkey x
  rw [State.advance_pc, BitVec.add_sub_cancel] at he
  rw [step_of_next hd he, State.tick_setPc_advance]

/-- A key wait depends on `pc`, memory and the keypad alone. -/
theorem WaitsForKey.idleFor {s : State} (h : WaitsForKey s) (k : Nat) : WaitsForKey (s.idleFor k) := h

end Sys2Proof.Machine

open Sys2Proof Sys2Proof.Machine

/-- Settles O58: a waiting state idles for one step and still waits after it. -/
theorem keyWaitRepeatsUntilAKeyIsPressed : Obligations.KeyWaitRepeatsUntilAKeyIsPressed :=
  fun _ k h => run_eq_idleFor (fun _ => WaitsForKey.step_eq) (fun _ hs => hs.idleFor 1) h k
end

section
/-! PROOFS. The host's `load` of an image that does not fit (70_reset_and_hazards.md). -/

namespace Sys2Proof.Machine

/-- The capacity in numbers (R243). -/
theorem maxImage_eq : maxImage = 3584 := rfl

theorem load_of_maxImage_lt {bytes : List Byte} (h : maxImage < bytes.length) (s : State) :
    load bytes s = .fault (.imageTooLarge s) := if_pos h

/-- The host goes on from the state that the error carries (R244). -/
theorem HostAction.apply_load_of_fault {bytes : List Byte} {s : State} {f : Fault} (h : Machine.load bytes s = .fault f) :
    (HostAction.load bytes).apply s = f.left := by
  simp only [HostAction.apply, h, stateAfter]

end Sys2Proof.Machine

open Sys2Proof Sys2Proof.Machine

/-- Settles O48: the size check fails before any byte is copied, and the error carries the state as it was. -/
theorem tooLargeImageChangesNothing : Obligations.TooLargeImageChangesNothing := by
  intro bytes s h
  have hload := load_of_maxImage_lt (maxImage_eq.symm ▸ h) s
  exact ⟨hload, HostAction.apply_load_of_fault hload⟩
end

section
/-! PROOFS. The decoder and the encoder (30_encoding.md): each is the other's inverse, the rows of the opcode table
are what the decoder dispatches on, and what it does not decode is reserved. -/

namespace Sys2Proof

/-! ### Decode after encode -/

theorem packNNN_clsAddr : packNNN 0 clsAddr = 0x00E0 := rfl

theorem packNNN_retAddr : packNNN 0 retAddr = 0x00EE := rfl

/-- SYS shares its family with CLS and RET, whose words go first (R77). -/
theorem decodeFamily0_packNNN {nnn : Addr12} (hcls : nnn ≠ clsAddr) (hret : nnn ≠ retAddr) :
    decodeFamily0 (packNNN 0 nnn) = .sys nnn := by
  have hne {a : Addr12} (h : nnn ≠ a) : packNNN 0 nnn ≠ packNNN 0 a := fun e =>
    h (by simpa using congrArg fieldNNN e)
  rw [decodeFamily0, ← packNNN_clsAddr, ← packNNN_retAddr, if_neg (hne hcls), if_neg (hne hret), fieldNNN_packNNN]

/-- The encoder's fields are the ones that the decoder reads and dispatches on. -/
theorem decode_encode {i : Instr} (hi : i.wellFormed = true) : decode (encode i) = .ok i := by
  cases i
  case cls | ret => rfl
  case sys nnn =>
    simp only [Instr.wellFormed, Bool.and_eq_true, bne_iff_ne] at hi
    simp [encode, decode, decodeFamily0_packNNN hi.1 hi.2]
  case ldReg | orReg | andReg | xorReg | addReg | sub | shr | subn | shl => simp [encode, decode, decodeFamily8]
  case skp | sknp => simp [encode, decode, decodeFamilyE]
  case ldXDT | ldXK | ldDTX | ldSTX | addI | ldF | ldB | ldMemX | ldXMem => simp [encode, decode, decodeFamilyF]
  -- in the other families the family alone tells the instruction
  all_goals simp [encode, decode]

theorem decodeBytes_encodeBytes {i : Instr} (hi : i.wellFormed = true) (rest : List Byte) :
    decodeBytes (encodeBytes i ++ rest) = .ok (i, rest) := by
  show (decode (wordOfBytes (highByte (encode i)) (lowByte (encode i)))).map _ = _
  rw [wordOfBytes_split, decode_encode hi]
  rfl

/-! ### Encode after decode -/

section
variable {w : Word} {f : Fin 16} (hf : (fieldFamily w).val = f.val)
include hf

theorem packNNN_eq_of_family : packNNN f (fieldNNN w) = w := by
  rw [← Fin.ext hf, packNNN_fields]

theorem packXKK_eq_of_family : packXKK f (fieldX w) (fieldKK w) = w := by
  rw [← Fin.ext hf, packXKK_fields]

theorem packXKK_eq_of_family_kk {kk : Byte} (hkk : (fieldKK w).toNat = kk.toNat) : packXKK f (fieldX w) kk = w := by
  rw [← BitVec.eq_of_toNat_eq hkk, packXKK_eq_of_family hf]

theorem packXYN_eq_of_family : packXYN f (fieldX w) (fieldY w) (fieldN w) = w := by
  rw [← Fin.ext hf, packXYN_fields]

theorem packXYN_eq_of_family_n {n : Fin 16} (hn : (fieldN w).val = n.val) :
    packXYN f (fieldX w) (fieldY w) n = w := by
  rw [← Fin.ext hn, packXYN_eq_of_family hf]

end

/-- An instruction is the one that the word stands for. -/
def Encodes (i : Instr) (w : Word) : Prop := i.wellFormed = true ∧ encode i = w

theorem encodes_decodeFamily0 {w : Word} (hf : (fieldFamily w).val = 0) : Encodes (decodeFamily0 w) w := by
  have hpack : packNNN 0 (fieldNNN w) = w := packNNN_eq_of_family hf
  unfold decodeFamily0
  split
  case isTrue h => exact ⟨rfl, h.symm⟩
  case isFalse hcls =>
    split
    case isTrue h => exact ⟨rfl, h.symm⟩
    case isFalse hret =>
      have hne {a : Addr12} (h : w ≠ packNNN 0 a) : fieldNNN w ≠ a := fun e => h (by rw [← e, hpack])
      exact ⟨Bool.and_eq_true_iff.2 ⟨bne_iff_ne.2 (hne hcls), bne_iff_ne.2 (hne hret)⟩, hpack⟩

theorem encodes_of_decodeFamily8 {w : Word} {i : Instr} (hf : (fieldFamily w).val = 8)
    (h : decodeFamily8 w = .ok i) : Encodes i w := by
  unfold decodeFamily8 at h
  split at h
  case h_10 => cases h
  all_goals cases h; exact ⟨rfl, packXYN_eq_of_family_n hf ‹_›⟩

theorem encodes_of_decodeFamilyE {w : Word} {i : Instr} (hf : (fieldFamily w).val = 0xE)
    (h : decodeFamilyE w = .ok i) : Encodes i w := by
  unfold decodeFamilyE at h
  split at h
  case h_3 => cases h
  all_goals cases h; exact ⟨rfl, packXKK_eq_of_family_kk hf ‹_›⟩

theorem encodes_of_decodeFamilyF {w : Word} {i : Instr} (hf : (fieldFamily w).val = 0xF)
    (h : decodeFamilyF w = .ok i) : Encodes i w := by
  unfold decodeFamilyF at h
  split at h
  case h_10 => cases h
  all_goals cases h; exact ⟨rfl, packXKK_eq_of_family_kk hf ‹_›⟩

/-- The decoder drops no bit of a word (R77). -/
theorem encodes_of_decode {w : Word} {i : Instr} (h : decode w = .ok i) : Encodes i w := by
  unfold decode at h
  split at h
  case h_1 hf => cases h; exact encodes_decodeFamily0 hf
  case h_6 hf | h_10 hf =>
    split at h
    · rename_i hn; cases h; exact ⟨rfl, packXYN_eq_of_family_n hf (congrArg Fin.val hn)⟩
    · cases h
  case h_9 hf => exact encodes_of_decodeFamily8 hf h
  case h_14 hf => cases h; exact ⟨rfl, packXYN_eq_of_family hf⟩
  case h_15 hf => exact encodes_of_decodeFamilyE hf h
  case h_16 =>
    simp only [imp_false] at *
    have := (fieldFamily w).isLt
    exact encodes_of_decodeFamilyF (by omega) h
  case h_2 hf | h_3 hf | h_11 hf | h_12 hf => cases h; exact ⟨rfl, packNNN_eq_of_family hf⟩
  case h_4 hf | h_5 hf | h_7 hf | h_8 hf | h_13 hf => cases h; exact ⟨rfl, packXKK_eq_of_family hf⟩

/-! ### The opcode table -/

/-- The word of an instruction fits the instruction's row (R76). -/
theorem row_fits_encode (i : Instr) : i.row.fits (encode i) = true := by
  suffices h : Laws.EncodesInItsRow.Statement i from beq_iff_eq.2 h
  open Laws.EncodesInItsRow in
  exact match i with
    | .cls => cls
    | .ret => ret
    | .sys nnn => sys nnn
    | .jp nnn => jp nnn
    | .call nnn => call nnn
    | .seImm x kk => seImm x kk
    | .sneImm x kk => sneImm x kk
    | .seReg x y => seReg x y
    | .ldImm x kk => ldImm x kk
    | .addImm x kk => addImm x kk
    | .ldReg x y => ldReg x y
    | .orReg x y => orReg x y
    | .andReg x y => andReg x y
    | .xorReg x y => xorReg x y
    | .addReg x y => addReg x y
    | .sub x y => sub x y
    | .shr x y => shr x y
    | .subn x y => subn x y
    | .shl x y => shl x y
    | .sneReg x y => sneReg x y
    | .ldI nnn => ldI nnn
    | .jpV0 nnn => jpV0 nnn
    | .rnd x kk => rnd x kk
    | .drw x y n => drw x y n
    | .skp x => skp x
    | .sknp x => sknp x
    | .ldXDT x => ldXDT x
    | .ldXK x => ldXK x
    | .ldDTX x => ldDTX x
    | .ldSTX x => ldSTX x
    | .addI x => addI x
    | .ldF x => ldF x
    | .ldB x => ldB x
    | .ldMemX x => ldMemX x
    | .ldXMem x => ldXMem x

theorem fieldFamily_and_F000 (w : Word) : fieldFamily (w &&& 0xF000) = fieldFamily w := by
  rw [and_F000, fieldFamily_packNNN]

theorem fieldFamily_and_F00F (w : Word) : fieldFamily (w &&& 0xF00F) = fieldFamily w := by
  rw [and_F00F, fieldFamily_packXYN]

theorem fieldN_and_F00F (w : Word) : fieldN (w &&& 0xF00F) = fieldN w := by
  rw [and_F00F, fieldN_packXYN]

theorem fieldFamily_and_F0FF (w : Word) : fieldFamily (w &&& 0xF0FF) = fieldFamily w := by
  rw [and_F0FF, fieldFamily_packXKK]

theorem fieldKK_and_F0FF (w : Word) : fieldKK (w &&& 0xF0FF) = fieldKK w := by
  rw [and_F0FF, fieldKK_packXKK]

theorem and_FFFF (w : Word) : w &&& 0xFFFF = w := BitVec.and_allOnes

/-- Family 0 but for the words of CLS and RET (R77). -/
theorem decode_of_family0 {w : Word} (hf : (fieldFamily w).val = 0) (hcls : w ≠ 0x00E0) (hret : w ≠ 0x00EE) :
    decode w = .ok (.sys (fieldNNN w)) := by
  rw [decode, hf]
  exact congrArg Except.ok ((if_neg hcls).trans (if_neg hret))

/-- The decoder dispatches on exactly the bits under a row's mask: a word that fits a row decodes to an instruction
of that row, but that CLS and RET take their words from SYS (R76, R77). -/
theorem decode_of_row_fits {w : Word} {i : Instr} (h : i.row.fits w = true) :
    (∃ j, decode w = .ok j ∧ j.row = i.row) ∨ (∃ a, i = .sys a) ∧ (w = 0x00E0 ∨ w = 0x00EE) := by
  replace h : w &&& i.row.mask = i.row.matchBits := beq_iff_eq.1 h
  cases i
  case sys a =>
    by_cases hw : w = 0x00E0 ∨ w = 0x00EE
    · exact .inr ⟨⟨a, rfl⟩, hw⟩
    · obtain ⟨hcls, hret⟩ := not_or.1 hw
      have hf : (fieldFamily w).val = 0 := by
        rw [← fieldFamily_and_F000, show w &&& 0xF000 = 0x0000 from h]
        rfl
      exact .inl ⟨_, decode_of_family0 hf hcls hret, rfl⟩
  case cls | ret => obtain rfl := (and_FFFF w).symm.trans h; exact .inl ⟨_, rfl, rfl⟩
  -- below, what the word decodes to (the first goal of each `refine`) is found by evaluating the decoder
  case seReg | sneReg | ldReg | orReg | andReg | xorReg | addReg | sub | shr | subn | shl =>
    simp only [Instr.row] at h
    refine .inl ⟨?_, ?_, ?_⟩
    rotate_left
    · simp only [decode, decodeFamily8, ← fieldFamily_and_F00F w, ← fieldN_and_F00F w, h]; rfl
    · rfl
  case skp | sknp | ldXDT | ldXK | ldDTX | ldSTX | addI | ldF | ldB | ldMemX | ldXMem =>
    simp only [Instr.row] at h
    refine .inl ⟨?_, ?_, ?_⟩
    rotate_left
    · simp only [decode, decodeFamilyE, decodeFamilyF, ← fieldFamily_and_F0FF w, ← fieldKK_and_F0FF w, h]; rfl
    · rfl
  all_goals
    simp only [Instr.row] at h
    refine .inl ⟨?_, ?_, ?_⟩
    rotate_left
    · rw [decode, ← fieldFamily_and_F000, h]; rfl
    · rfl

/-! ### Words written out from R71 -/

theorem wordNNN_eq_packNNN (f : Fin 16) (nnn : Addr12) : wordNNN f.val nnn = packNNN f nnn := by
  rw [wordNNN, packNNN, Nat.mul_comm]

theorem wordXKK_eq_packXKK (f : Fin 16) (x : Reg) (kk : Byte) : wordXKK f.val x kk.toNat = packXKK f x kk := by
  rw [wordXKK, packXKK, Nat.mul_comm 4096, Nat.mul_comm 256]

theorem wordXYN_eq_packXYN (f : Fin 16) (x y : Reg) (n : Fin 16) :
    wordXYN f.val x y n.val = packXYN f x y n := by
  rw [wordXYN, packXYN, Nat.mul_comm 4096, Nat.mul_comm 256, Nat.mul_comm 16]

/-- A word written out from R71 decodes to the instruction whose encoding it is. -/
theorem decode_of_eq_encode {w : Word} {i : Instr} (hw : w = encode i) (hi : i.wellFormed = true := by rfl) :
    decode w = .ok i := hw ▸ decode_encode hi

/-! ### The reserved words -/

/-- The reserved words are those that decode to nothing or to SYS (R78). -/
theorem reservedWord_iff {w : Word} :
    Machine.reservedWord w = true ↔ ∀ i, decode w = .ok i → ∃ nnn, i = .sys nnn := by
  simp only [Machine.reservedWord, decode, ← fieldFamily_val w, ← fieldN_val w, ← fieldKK_toNat w]
  split
  case h_1 hf =>
    unfold decodeFamily0
    split_ifs <;> simp_all [BitVec.toNat_eq_nat]
  case h_6 hf | h_10 hf =>
    by_cases h : fieldN w = 0 <;> simp [hf, h]
  case h_9 hf =>
    unfold decodeFamily8
    split
    case h_10 =>
      -- the nibbles that no case has taken are the seven of R78
      simp only [imp_false] at *
      have := (fieldN w).isLt
      simp [hf]
      omega
    all_goals simp [*]
  case h_15 hf =>
    unfold decodeFamilyE
    split <;> simp_all
  case h_16 =>
    -- the last arm is the one family that no case has taken
    simp only [imp_false] at *
    have hf : (fieldFamily w).val = 15 := by have := (fieldFamily w).isLt; omega
    unfold decodeFamilyF
    split <;> simp_all
  -- no word of the other families is reserved
  all_goals simp [*]

end Sys2Proof

open Sys2Proof Sys2Proof.Machine

/-- Settles O1: the decoder reads the fields that the encoder packs, and a word is put together again from its two
bytes. -/
theorem decodeOfEncodeIsIdentity : Obligations.DecodeOfEncodeIsIdentity :=
  fun _ hi => ⟨decode_encode hi, decodeBytes_encodeBytes hi⟩

/-- Settles O2: in each family the dispatch fixes the bits that the instruction's fields do not carry. -/
theorem encodeOfDecodeIsIdentity : Obligations.EncodeOfDecodeIsIdentity :=
  fun _ _ h => encodes_of_decode h

/-- Settles O3: a word that decodes is the encoding of what it decodes to, which fits its own row; and two rows that
a word fits are both the row of what it decodes to, but for SYS at the words of CLS and RET. -/
theorem decodeFollowsTheOpcodeTable : Obligations.DecodeFollowsTheOpcodeTable := by
  refine ⟨fun w i h => ?_, fun w i j hi hj hne => ?_⟩
  · obtain ⟨-, rfl⟩ := encodes_of_decode h
    exact row_fits_encode i
  · obtain ⟨i', hdi, hri⟩ | ⟨ha, hw⟩ := decode_of_row_fits hi
    · obtain ⟨j', hdj, hrj⟩ | ⟨ha, hw⟩ := decode_of_row_fits hj
      · obtain rfl : i' = j' := Except.ok.inj (hdi.symm.trans hdj)
        exact absurd (hri.symm.trans hrj) hne
      · exact ⟨.inr ha, hw⟩
    · exact ⟨.inl ha, hw⟩

/-- Settles O4: each word is evaluated. -/
theorem sampleWordsDecode : Obligations.SampleWordsDecode := by
  unfold Obligations.SampleWordsDecode
  decide

/-- Settles O5: a reserved word decodes to nothing or to SYS, whose DecodeError carries the fetched word; any other
word decodes to an instruction that raises no DecodeError. -/
theorem reservedWordsRaiseDecodeError : Obligations.ReservedWordsRaiseDecodeError := by
  intro s
  have hres := reservedWord_iff (w := fetchWord s)
  cases hd : decode (fetchWord s) with
  | error r => exact ⟨fun _ => step_of_reject hd, fun h => by simp [hd, h] at hres⟩
  | ok i =>
    simp only [hd, Except.ok.injEq, forall_eq'] at hres
    refine ⟨fun h => ?_, fun h w t hstep => ?_⟩
    · obtain ⟨nnn, rfl⟩ := hres.1 h
      obtain ⟨-, hw⟩ := encodes_of_decode hd
      have hword : wordNNN 0 nnn = fetchWord s := (wordNNN_eq_packNNN 0 nnn).trans hw
      exact step_of_fault hd (exec_fault_iff.2 (.inl ⟨nnn, rfl, by rw [hword]; rfl⟩))
    · obtain ⟨r, hr, -⟩ | ⟨j, hj, hf⟩ := step_fault_cases hstep
      · cases hd.symm.trans hr
      · obtain rfl : i = j := Except.ok.inj (hd.symm.trans hj)
        obtain ⟨nnn, hi, -⟩ | ⟨_, -, -, h'⟩ | ⟨-, -, h'⟩ := exec_fault_iff.1 hf
        · rw [hres.2 ⟨nnn, hi⟩] at h; cases h
        · cases h'
        · cases h'
end

section
/-! PROOFS. What an execute phase may write (10_state.md, R56, R163), said once over all instructions, and what
follows from it: the frames, and the canonical form of memory along every run. -/

namespace Sys2Proof.Machine

/-! ### Registers beside the destination -/

theorem State.V_setReg_ne (s : State) {x r : Reg} (b : Byte) (h : r ≠ x) : (s.setReg x b).V[r] = s.V[r] :=
  s.reg_setReg_ne b h

theorem State.V_setRegAndFlag_ne (s : State) (o : Config.VfOrder) {x r : Reg} (b f : Byte) (hx : r ≠ x)
    (hF : r ≠ 15) : (s.setRegAndFlag o x b f).V[r] = s.V[r] := by
  cases o with
  | flagLast => exact (State.V_setReg_ne _ f hF).trans (s.V_setReg_ne b hx)
  | destLast => exact (State.V_setReg_ne _ b hx).trans (s.V_setReg_ne f hF)

theorem State.V_loadRegs_of_gt (s : State) {x r : Reg} (h : ¬ r ≤ x) : (s.loadRegs x).V[r] = s.V[r] := by
  rw [State.loadRegs_V, if_neg h]

/-! ### The frame of an execute phase -/

/-- The bytes that an instruction stores from `I` upward (R56). -/
def stored : Instr → State → List Byte
  | .ldB x, s => bcdDigits (s.reg x)
  | .ldMemX x, s => s.V.toList.take (x.val + 1)
  | _, _ => []

theorem length_stored (i : Instr) (s : State) : (stored i s).length = storedBytes i := by
  cases i
  case ldMemX x => simp [stored, storedBytes]
  all_goals rfl

/-- Which part of `s` an execute phase of `i` may have changed in `t`: the fields and registers of the predicates
of R21, R22, R26 and R34, and memory at `I` upward. -/
structure Frame (i : Instr) (s t : State) : Prop where
  index : writesIndex i = false → t.I = s.I
  screen : writesScreen i = false → t.fb = s.fb
  regs : ∀ r : Reg, writesReg i r = false → (writesFlag i = false ∨ r ≠ 15) → t.V[r] = s.V[r]
  mem : t.mem = (s.storeBytes s.I (stored i s)).mem

theorem Frame.of_setReg {i : Instr} {s : State} {x : Reg} (b : Byte) (hx : ∀ r, writesReg i r = (r == x))
    (hst : stored i s = []) : Frame i s (s.setReg x b) where
  index _ := rfl
  screen _ := rfl
  regs r hr _ := s.V_setReg_ne b (by simpa [hx] using hr)
  mem := by rw [hst]; rfl

theorem Frame.of_setRegAndFlag {i : Instr} {s : State} {x : Reg} (o : Config.VfOrder) (b f : Byte)
    (hx : ∀ r, writesReg i r = (r == x)) (hF : writesFlag i = true) (hst : stored i s = []) :
    Frame i s (s.setRegAndFlag o x b f) where
  index _ := s.setRegAndFlag_I o x b f
  screen _ := s.setRegAndFlag_fb o x b f
  regs r hr h15 := s.V_setRegAndFlag_ne o b f (by simpa [hx] using hr) (by simpa [hF] using h15)
  mem := by rw [hst, s.setRegAndFlag_mem]; rfl

theorem Frame.of_storeBytes {i : Instr} {s : State} : Frame i s (s.storeBytes s.I (stored i s)) where
  index _ := s.storeBytes_I _ _
  screen _ := s.storeBytes_fb _ _
  regs r _ _ := by rw [s.storeBytes_V]
  mem := rfl

/-- Control transfer and the timers' loads leave all four parts. -/
theorem Frame.of_eq {i : Instr} {s t : State} (hI : t.I = s.I) (hfb : t.fb = s.fb) (hV : t.V = s.V)
    (hmem : t.mem = s.mem) (hst : stored i s = []) : Frame i s t where
  index _ := hI
  screen _ := hfb
  regs r _ _ := by rw [hV]
  mem := by rw [hst, hmem]; rfl

/-- What an execute phase leaves unchanged, over all instructions. -/
theorem exec_frame {i : Instr} {s t : State} (h : exec i s = .next t) : Frame i s t := by
  cases i
  case sys => cases h
  case ret =>
    simp only [exec, execRet] at h
    obtain ⟨-, hpop⟩ | ⟨-, _, hpop⟩ := s.popReturn_cases
    · rw [hpop] at h; cases h
    · rw [hpop] at h; cases h; exact .of_eq rfl rfl rfl rfl rfl
  case call =>
    simp only [exec, execCall] at h
    obtain ⟨-, hpush⟩ | ⟨_, hpush⟩ := s.pushReturn_cases
    · rw [hpush] at h; cases h
    · rw [hpush] at h; cases h; exact .of_eq rfl rfl rfl rfl rfl
  case jp | jpV0 | ldDTX | ldSTX => cases h; exact .of_eq rfl rfl rfl rfl rfl
  case seImm | sneImm | seReg | sneReg | skp | sknp =>
    cases h; exact .of_eq (s.skipIf_I _) (s.skipIf_fb _) (s.skipIf_V _) (s.skipIf_mem _) rfl
  case ldImm | addImm | ldReg | orReg | andReg | xorReg | ldXDT =>
    cases h; exact .of_setReg _ (fun _ => rfl) rfl
  case rnd x kk =>
    have hF : Frame (.rnd x kk) s (s.setReg x (Config.randomByte s.draws &&& kk)) := .of_setReg _ (fun _ => rfl) rfl
    cases h
    exact ⟨hF.index, hF.screen, hF.regs, hF.mem⟩
  case ldXK x =>
    obtain ⟨b, hb⟩ | hb := execLdXK_cases x s
    · cases hb.symm.trans h; exact .of_setReg _ (fun _ => rfl) rfl
    · cases hb.symm.trans h; exact .of_eq rfl rfl rfl rfl rfl
  case addReg | sub | subn | shr | shl => cases h; exact .of_setRegAndFlag _ _ _ (fun _ => rfl) rfl rfl
  case ldB | ldMemX => cases h; exact .of_storeBytes
  case cls => cases h; exact ⟨fun _ => rfl, nofun, fun _ _ _ => rfl, rfl⟩
  case drw =>
    cases h
    exact ⟨fun _ => rfl, nofun, fun r _ h15 => State.V_setReg_ne _ _ (h15.resolve_left nofun), rfl⟩
  case ldXMem x =>
    obtain rfl : s.loadRegs x = t := Host.Outcome.next.inj h
    exact ⟨fun _ => s.loadRegs_I x, fun _ => s.loadRegs_fb x,
      fun r hr _ => s.V_loadRegs_of_gt (of_decide_eq_false hr), s.loadRegs_mem x⟩
  case ldI | addI => cases h; exact ⟨nofun, fun _ => rfl, fun _ _ _ => rfl, rfl⟩
  case ldF => cases h; exact ⟨nofun, fun _ => rfl, fun _ _ _ => rfl, rfl⟩

/-! ### Memory -/

/-- Memory outside the stored bytes (R56). -/
theorem exec_read_ne {i : Instr} {s t : State} (h : exec i s = .next t) {a : Nat}
    (ha : ∀ k, k < storedBytes i → a ≠ reduceAddr (indexAddr s k)) : t.mem.read a = s.mem.read a := by
  rw [(exec_frame h).mem]
  exact s.storeBytes_read_ne s.I _ (by rwa [length_stored])

theorem exec_mem_of_stores_nothing {i : Instr} {s t : State} (h : exec i s = .next t) (hi : storedBytes i = 0) :
    t.mem = s.mem := by
  rw [(exec_frame h).mem, List.length_eq_zero_iff.1 ((length_stored i s).trans hi)]
  rfl

theorem exec_keeps_inv {i : Instr} {s t : State} (hs : s.Inv) (h : exec i s = .next t) : t.Inv := by
  rw [State.Inv, (exec_frame h).mem]
  exact State.storeBytes_wf hs _ _

/-! ### Errors -/

theorem exec_fault_left {i : Instr} {s : State} {f : Fault} (h : exec i s = .fault f) : f.left = s := by
  obtain ⟨_, -, rfl⟩ | ⟨_, -, -, rfl⟩ | ⟨-, -, rfl⟩ := exec_fault_iff.1 h <;> rfl

/-- A step that ends with an error keeps the advance and nothing else (R108). -/
theorem step_fault_left {s : State} {f : Fault} (h : step s = .fault f) : f.left = s.advance (fetchWord s) := by
  obtain ⟨_, -, rfl⟩ | ⟨_, -, he⟩ := step_fault_cases h
  · rfl
  · exact exec_fault_left he

/-- One word further, as a number modulo 2^16 (R102, R126). -/
theorem add_two_eq_ofNat (a : Word) : a + 2 = BitVec.ofNat 16 (a.toNat + 2) := BitVec.eq_of_toNat_eq (by simp)

theorem State.advance_eq_ofNat (s : State) (w : Word) :
    s.advance w = { s with currentInstruction := w, pc := BitVec.ofNat 16 (s.pc.toNat + 2) } := by
  rw [State.advance, add_two_eq_ofNat]

/-! ### The invariant along runs -/

theorem stateAfter_step_inv {s : State} (hs : s.Inv) : (stateAfter s (step s)).Inv := by
  obtain h | ⟨i, t, ht, h⟩ := stateAfter_step_cases s
  · rw [h]; exact hs
  · have hadv : (s.advance (fetchWord s)).Inv := hs
    rw [h, State.Inv, State.tick_mem]
    exact exec_keeps_inv hadv ht

theorem reset_inv : State.reset.Inv := ⟨List.Pairwise.nil, nofun⟩

theorem hostAction_keeps_inv (a : HostAction) {s : State} (hs : s.Inv) : (a.apply s).Inv := by
  cases a with
  | reset => exact reset_inv
  | load bytes =>
    show (stateAfter s (load bytes s)).Inv
    unfold load
    split
    · exact hs
    · exact State.storeBytes_wf hs _ _
  | writeKeys keys => exact hs
  | read => exact hs

theorem event_keeps_inv (e : Event) {s : State} (hs : s.Inv) : (e.apply s).Inv := by
  cases e with
  | step => exact stateAfter_step_inv hs
  | host a => exact hostAction_keeps_inv a hs

theorem runEvents_keeps_inv (es : List Event) {s : State} (hs : s.Inv) : (runEvents es s).Inv := by
  induction es generalizing s with
  | nil => exact hs
  | cons e es ih => exact ih (event_keeps_inv e hs)

end Sys2Proof.Machine

open Sys2Proof Sys2Proof.Machine

/-- Settles O7: an execute phase that errs carries its own state, which in a step is the advanced one. -/
theorem errorLeavesOnlyFetchEffects : Obligations.ErrorLeavesOnlyFetchEffects :=
  ⟨fun s _ h => (step_fault_left h).trans (s.advance_eq_ofNat _), fun _ _ _ => exec_fault_left⟩

/-- Settles O38: the index part of the frame. -/
theorem onlyThreeInstructionsWriteIndex : Obligations.OnlyThreeInstructionsWriteIndex :=
  fun _ _ _ hi h => (exec_frame h).index hi

/-- Settles O40: the register part of the frame. -/
theorem onlyDestinationsAndFlagsChange : Obligations.OnlyDestinationsAndFlagsChange :=
  fun _ _ _ r h => (exec_frame h).regs r

/-- Settles O42: the screen part of the frame. -/
theorem onlyClsAndDrwWriteTheScreen : Obligations.OnlyClsAndDrwWriteTheScreen :=
  fun _ _ _ hi h => (exec_frame h).screen hi

/-- Settles O43: memory after an execute phase is memory with the instruction's bytes stored from `I` upward. -/
theorem memoryChangesOnlyAtStoredAddresses : Obligations.MemoryChangesOnlyAtStoredAddresses :=
  fun _ _ _ h => ⟨fun _ => exec_read_ne h, exec_mem_of_stores_nothing h⟩

/-- Settles O44: the empty list is in canonical form. -/
theorem resetMeetsTheInvariant : Obligations.ResetMeetsTheInvariant := reset_inv

/-- Settles O45: storing bytes keeps the canonical form, and the rest of a step does not touch memory. -/
theorem stepKeepsTheInvariant : Obligations.StepKeepsTheInvariant := by
  intro s hs
  have hafter := stateAfter_step_inv hs
  exact ⟨fun t ht => by rwa [ht] at hafter, fun f hf => by rwa [hf] at hafter⟩

/-- Settles O46, by induction on the list of events. -/
theorem everyEventKeepsTheInvariant : Obligations.EveryEventKeepsTheInvariant :=
  fun es _ hs => runEvents_keeps_inv es hs
end

section
/-! PROOFS. DRW (R181, R182): a sprite as the set of the cells that its set bits cover, and drawing as turning
those cells over. -/

namespace Sys2Proof.Machine

/-! ### The cells of a sprite -/

/-- The screen cells that DRW with operands `x`, `y`, `n` turns over. -/
def drawnCells (s : State) (x y : Reg) (n : Fin 16) : List (Fin Config.fbW × Fin Config.fbH) :=
  spriteCells (s.reg x) (s.reg y) 0 (spriteBytes s n.val)

theorem spriteBytes_getElem? (s : State) {n row : Nat} (h : row < n) :
    (spriteBytes s n)[row]? = some (s.readByte (indexAddr s row)) := by
  simp [spriteBytes, h]

theorem lt_of_spriteBytes_getElem? {s : State} {n row : Nat} {b : Byte} (h : (spriteBytes s n)[row]? = some b) :
    row < n := by
  simpa [spriteBytes] using (List.getElem?_eq_some_iff.1 h).1

/-- A cell is drawn when a set bit of the sprite covers it under the wrap (R181, R182). -/
theorem mem_drawnCells {s : State} {x y : Reg} {n : Fin 16} {cx : Fin Config.fbW} {cy : Fin Config.fbH} :
    (cx, cy) ∈ drawnCells s x y n ↔
      ∃ row col : Nat, row < n.val ∧ col < 8 ∧ cx.val = (s.V[x].toNat + col) % 64 ∧
        cy.val = (s.V[y].toNat + row) % 32 ∧ spriteSet s row col = true := by
  rw [drawnCells, mem_spriteCells]
  constructor
  · rintro ⟨row, col, hcol, hc, b, hb, hset⟩
    obtain ⟨rfl, rfl⟩ := Prod.mk.inj hc
    have hrow := lt_of_spriteBytes_getElem? hb
    obtain rfl := Option.some.inj (hb.symm.trans (spriteBytes_getElem? s hrow))
    exact ⟨row, col, hrow, hcol, rfl, congrArg (fun k => (s.V[y].toNat + k) % 32) (Nat.zero_add row), hset⟩
  · rintro ⟨row, col, hrow, hcol, hx, hy, hset⟩
    have hcx : cx = cellX (s.reg x) col := Fin.ext hx
    have hcy : cy = cellY (s.reg y) (0 + row) := Fin.ext (by rw [Nat.zero_add]; exact hy)
    exact ⟨row, col, hcol, by rw [hcx, hcy], _, spriteBytes_getElem? s hrow, hset⟩

/-- A sprite has at most 15 rows and 8 columns, fewer than the screen. -/
theorem nodup_drawnCells (s : State) (x y : Reg) (n : Fin 16) : (drawnCells s x y n).Nodup :=
  nodup_spriteCells _ _ 0 _ (by simp [spriteBytes])

/-! ### Drawing -/

/-- The screen and the collision that DRW leaves. -/
def drawing (s : State) (x y : Reg) (n : Fin 16) : Framebuffer × Bool :=
  toggleCells (drawnCells s x y n) (s.fb, false)

/-- The state that DRW leaves: the screen first, VF last. -/
def State.draw (s : State) (x y : Reg) (n : Fin 16) : State :=
  State.setReg { s with fb := (drawing s x y n).1 } vfReg (flagByte (drawing s x y n).2)

theorem exec_drw (s : State) (x y : Reg) (n : Fin 16) : exec (.drw x y n) s = .next (s.draw x y n) := by
  simp only [exec, execDrw, drawRows_eq_toggleCells]
  rfl

/-- Each drawn cell is turned over, the others stay. -/
theorem cell_draw (s : State) (x y : Reg) (n : Fin 16) (cx : Fin Config.fbW) (cy : Fin Config.fbH) :
    (s.draw x y n).fb.cell cx cy = (s.fb.cell cx cy ^^ decide ((cx, cy) ∈ drawnCells s x y n)) :=
  cell_toggleCells (nodup_drawnCells s x y n) (s.fb, false) cx cy

theorem collision_drawing {s : State} {x y : Reg} {n : Fin 16} :
    (drawing s x y n).2 = true ↔ ∃ cx cy, (cx, cy) ∈ drawnCells s x y n ∧ s.fb.cell cx cy = true := by
  rw [drawing, collision_toggleCells (nodup_drawnCells s x y n)]
  simp

theorem flagByte_eq_one_iff {c : Bool} : flagByte c = 1 ↔ c = true := by cases c <;> decide

theorem flagByte_eq_zero_or_one (c : Bool) : flagByte c = 0 ∨ flagByte c = 1 := by cases c <;> decide

theorem draw_VF (s : State) (x y : Reg) (n : Fin 16) : (s.draw x y n).V[15] = flagByte (drawing s x y n).2 :=
  State.reg_setReg_self _ vfReg _

/-- VF after DRW says whether a drawn cell was on (R182). -/
theorem draw_VF_eq_one_iff {s : State} {x y : Reg} {n : Fin 16} :
    (s.draw x y n).V[15] = 1 ↔ ∃ cx cy, (cx, cy) ∈ drawnCells s x y n ∧ s.fb.cell cx cy = true := by
  rw [draw_VF, flagByte_eq_one_iff, collision_drawing]

/-- DRW again with the same operands, index and memory draws the same cells. -/
theorem drawnCells_congr {s t : State} {x y : Reg} (n : Fin 16) (hx : t.V[x] = s.V[x]) (hy : t.V[y] = s.V[y])
    (hI : t.I = s.I) (hmem : t.mem = s.mem) : drawnCells t x y n = drawnCells s x y n := by
  simp only [drawnCells, spriteBytes, State.reg, State.readByte, indexAddr, hx, hy, hI, hmem]

/-- `∃` over a cell and then over the bit that covers it, or over both at once. -/
theorem exists_drawnCell_iff {s : State} {x y : Reg} {n : Fin 16} {P : Fin Config.fbW → Fin Config.fbH → Prop} :
    (∃ cx cy, (cx, cy) ∈ drawnCells s x y n ∧ P cx cy) ↔
      ∃ (row col : Nat) (cx : Fin 64) (cy : Fin 32), row < n.val ∧ col < 8 ∧
        cx.val = (s.V[x].toNat + col) % 64 ∧ cy.val = (s.V[y].toNat + row) % 32 ∧
        spriteSet s row col = true ∧ P cx cy := by
  simp only [mem_drawnCells]
  constructor
  · rintro ⟨cx, cy, ⟨row, col, hrow, hcol, hx, hy, hset⟩, hP⟩
    exact ⟨row, col, cx, cy, hrow, hcol, hx, hy, hset, hP⟩
  · rintro ⟨row, col, cx, cy, hrow, hcol, hx, hy, hset, hP⟩
    exact ⟨cx, cy, ⟨row, col, hrow, hcol, hx, hy, hset⟩, hP⟩

end Sys2Proof.Machine

open Sys2Proof Sys2Proof.Machine

/-- Settles O31: DRW turns over the cells of the sprite, which are all different, so that each is turned over once
and the collision is read on the screen as it was. -/
theorem drwTogglesTheSpriteCells : Obligations.DrwTogglesTheSpriteCells := by
  refine fun x y n => ⟨decode_of_eq_encode (wordXYN_eq_packXYN 0xD x y n), fun s => ⟨_, exec_drw s x y n, ?_⟩⟩
  refine ⟨rfl, fun cx cy => ?_, fun r hr => State.V_setReg_ne _ _ hr, ?_, ?_⟩
  · rw [← mem_drawnCells]
    show (s.draw x y n).fb.cell cx cy ≠ s.fb.cell cx cy ↔ _
    by_cases h : (cx, cy) ∈ drawnCells s x y n <;> simp [cell_draw, h]
  · rw [draw_VF]
    exact flagByte_eq_zero_or_one _
  · rw [draw_VF_eq_one_iff, exists_drawnCell_iff]
    rfl

/-- Settles O60: both draws turn over the same cells, and a cell of them is on before the second draw when it was
off before the first. -/
theorem drawingTwiceRestoresTheScreen : Obligations.DrawingTwiceRestoresTheScreen := by
  intro x y n s t u ht hu hx hy
  obtain rfl : s.draw x y n = t := Host.Outcome.next.inj ((exec_drw s x y n).symm.trans ht)
  obtain rfl := Host.Outcome.next.inj ((exec_drw _ x y n).symm.trans hu)
  have hsame : drawnCells (s.draw x y n) x y n = drawnCells s x y n := drawnCells_congr n hx hy rfl rfl
  constructor
  · apply Framebuffer.ext_cells
    intro cx cy
    rw [cell_draw, cell_draw, hsame, Bool.xor_assoc, Bool.xor_self, Bool.xor_false]
  · have hoff (cx : Fin 64) (cy : Fin 32) :
        (cx, cy) ∈ drawnCells s x y n ∧ (s.draw x y n).fb.cell cx cy = true ↔
        (cx, cy) ∈ drawnCells s x y n ∧ s.fb.cell cx cy = false :=
      and_congr_right fun h => by simp [cell_draw, h]
    simp only [draw_VF_eq_one_iff, hsame, hoff, exists_drawnCell_iff]
    rfl

/-- Settles O32: the byte of a sprite row is read at its reduced address, and its bit is a power of two's digit. -/
theorem spriteBitsAreMostSignificantFirst : Obligations.SpriteBitsAreMostSignificantFirst := by
  intro s row col _ _
  rw [spriteSet, spriteBit, readByte_indexAddr, BitVec.getLsbD, Nat.testBit_eq_decide_div_mod_eq, decide_eq_true_iff]
  rfl
end

section
/-! PROOFS. What no step can observe: stack entries at and above `sp` (R29), the sound timer (R31), and the bits of
an address above its low 12 (R53). -/

namespace Sys2Proof.Machine

/-! ### From the execute phase to the step -/

section
variable {s s' : State} (hw : fetchWord s' = fetchWord s)
include hw

/-- A success of a step is carried over to another state with the execute phase, up to the tick. -/
theorem step_next_transfer {R : State → State → Prop} {t : State}
    (hexec : ∀ i u, exec i (s.advance (fetchWord s)) = .next u →
      ∃ u', exec i (s'.advance (fetchWord s)) = .next u' ∧ R u.tick u'.tick)
    (h : step s = .next t) : ∃ t', step s' = .next t' ∧ R t t' := by
  obtain ⟨i, u, hd, hu, rfl⟩ := step_next_cases h
  obtain ⟨u', hu', hR⟩ := hexec i u hu
  exact ⟨u'.tick, step_of_next (hw ▸ hd) (hw ▸ hu'), hR⟩

/-- An error depends on the fetched word and `sp` alone (R104). -/
theorem step_fault_transfer (hsp : s'.sp = s.sp) {f : Fault} (h : step s = .fault f) :
    ∃ f', step s' = .fault f' ∧ f'.code = f.code := by
  obtain ⟨r, hd, rfl⟩ | ⟨i, hd, hf⟩ := step_fault_cases h
  · exact ⟨_, step_of_reject (hw ▸ hd), rfl⟩
  · suffices hf' : ∃ f', exec i (s'.advance (fetchWord s')) = .fault f' ∧ f'.code = f.code by
      obtain ⟨f', hf', hcode⟩ := hf'
      exact ⟨f', step_of_fault (hw ▸ hd) hf', hcode⟩
    obtain ⟨nnn, hi, rfl⟩ | ⟨nnn, hi, hfull, rfl⟩ | ⟨hi, hempty, rfl⟩ := exec_fault_iff.1 hf
    · exact ⟨_, exec_fault_iff.2 (.inl ⟨nnn, hi, rfl⟩), rfl⟩
    · exact ⟨_, exec_fault_iff.2 (.inr (.inl ⟨nnn, hi, (congrArg Fin.val hsp).trans hfull, rfl⟩)), rfl⟩
    · exact ⟨_, exec_fault_iff.2 (.inr (.inr ⟨hi, (congrArg Fin.val hsp).trans hempty, rfl⟩)), rfl⟩

end

/-! ### Stale stack entries -/

/-- A CALL with room: the entry at `sp` is written, `sp` raised and `pc` set (R125). -/
theorem exec_call_of_lt {s : State} (h : s.sp.val < 16) (nnn : Addr12) :
    exec (.call nnn) s =
      .next { s with stack := s.stack.set s.sp.val s.pc h, sp := ⟨s.sp.val + 1, Nat.succ_lt_succ h⟩,
                     pc := zextAddr nnn } := by
  obtain ⟨hfull, -⟩ | ⟨_, hpush⟩ := s.pushReturn_cases
  · exact absurd hfull h.ne
  · simp only [exec, execCall, hpush]; rfl

theorem exec_call_next {s t : State} {nnn : Addr12} (h : exec (.call nnn) s = .next t) : s.sp.val < 16 := by
  by_contra hfull
  have : s.sp.val < 17 := s.sp.isLt
  have hf := exec_fault_iff.2 (.inr (.inl ⟨nnn, rfl, (by omega : s.sp.val = 16), rfl⟩))
  cases h.symm.trans hf

theorem State.sp_pred_lt (s : State) : s.sp.val - 1 < 16 := by
  have : s.sp.val < 17 := s.sp.isLt
  omega

/-- A RET with an entry to pop: `pc` is set to it and `sp` lowered (R122). -/
theorem exec_ret_of_pos {s : State} (h : 0 < s.sp.val) :
    exec .ret s = .next { s with sp := ⟨s.sp.val - 1, Nat.lt_succ_of_lt s.sp_pred_lt⟩,
                                 pc := s.stack[s.sp.val - 1]'s.sp_pred_lt } := by
  obtain ⟨hempty, -⟩ | ⟨_, _, hpop⟩ := s.popReturn_cases
  · exact absurd hempty h.ne'
  · simp only [exec, execRet, hpop]

theorem exec_ret_next {s t : State} (h : exec .ret s = .next t) : 0 < s.sp.val := by
  by_contra hempty
  have hf := exec_fault_iff.2 (.inr (.inr ⟨rfl, (by omega : s.sp.val = 0), rfl⟩))
  cases h.symm.trans hf

theorem exec_sameButStale {i : Instr} {s s' t : State} (hs : SameButStale s s') (h : exec i s = .next t) :
    ∃ t', exec i s' = .next t' ∧ SameButStale t t' := by
  obtain ⟨heq, hlive⟩ := hs
  generalize s'.stack = st at heq hlive
  subst heq
  by_cases hi : usesStack i = true
  · cases i
    case call nnn =>
      have hlt := exec_call_next h
      obtain rfl := Host.Outcome.next.inj ((exec_call_of_lt hlt nnn).symm.trans h)
      refine ⟨_, exec_call_of_lt (s := { s with stack := st }) hlt nnn, rfl, fun k hk => ?_⟩
      simp only [Fin.getElem_fin, Vector.getElem_set]
      split
      · rfl
      · exact hlive k (by simp at hk; omega)
    case ret =>
      have hpos := exec_ret_next h
      obtain rfl := Host.Outcome.next.inj ((exec_ret_of_pos hpos).symm.trans h)
      have htop : st[s.sp.val - 1]'s.sp_pred_lt = s.stack[s.sp.val - 1]'s.sp_pred_lt :=
        hlive ⟨s.sp.val - 1, s.sp_pred_lt⟩ (Nat.sub_lt hpos Nat.one_pos)
      refine ⟨_, exec_ret_of_pos (s := { s with stack := st }) hpos, ?_,
        fun k hk => hlive k (hk.trans_le (Nat.sub_le _ 1))⟩
      simp only [htop]
    all_goals cases hi
  · replace hi := Bool.eq_false_iff.2 hi
    have hp : Patch.UnusedBy { stack := fun _ => st } i s := by constructor <;> simp [hi]
    refine ⟨{ t with stack := st }, exec_patch hp h, rfl, fun k hk => ?_⟩
    rw [exec_sp_of_not_usesStack h hi] at hk
    rw [exec_stack_of_not_usesStack h hi]
    exact hlive k hk

theorem SameButStale.fetchWord_eq {s s' : State} (hs : SameButStale s s') : fetchWord s' = fetchWord s := by
  rw [hs.1]; rfl

theorem SameButStale.advance {s s' : State} (hs : SameButStale s s') (w : Word) :
    SameButStale (s.advance w) (s'.advance w) := by
  obtain ⟨heq, hlive⟩ := hs
  refine ⟨?_, hlive⟩
  rw [heq]; rfl

theorem SameButStale.tick {s s' : State} (hs : SameButStale s s') : SameButStale s.tick s'.tick := by
  obtain ⟨heq, hlive⟩ := hs
  refine ⟨?_, hlive⟩
  rw [heq]; rfl

/-! ### The sound timer -/

section
variable (s : State) (v : Byte)

theorem storeBytes_withST (a : Word) (bs : List Byte) :
    State.storeBytes { s with ST := v } a bs = { s.storeBytes a bs with ST := v } := by
  induction bs generalizing s a with
  | nil => rfl
  | cons b bs ih => exact ih (s.writeByte a b) (a + 1)

theorem skipIf_withST (c : Bool) : State.skipIf { s with ST := v } c = { s.skipIf c with ST := v } := by
  cases c <;> rfl

theorem loadRegs_withST (x : Reg) : State.loadRegs { s with ST := v } x = { s.loadRegs x with ST := v } := by
  simp only [State.loadRegs, State.readByte, indexAddr]

end

/-- An execute phase does not read the sound timer: it keeps the other value or writes its own. -/
theorem exec_withST {i : Instr} {s t : State} (v : Byte) (h : exec i s = .next t) :
    ∃ v', exec i { s with ST := v } = .next { t with ST := v' } := by
  cases i
  case sys => cases h
  case call nnn =>
    have hlt := exec_call_next h
    obtain rfl := Host.Outcome.next.inj ((exec_call_of_lt hlt nnn).symm.trans h)
    exact ⟨v, exec_call_of_lt (s := { s with ST := v }) hlt nnn⟩
  case ret =>
    have hpos := exec_ret_next h
    obtain rfl := Host.Outcome.next.inj ((exec_ret_of_pos hpos).symm.trans h)
    exact ⟨v, exec_ret_of_pos (s := { s with ST := v }) hpos⟩
  case ldXK x =>
    simp only [exec, execLdXK] at h ⊢
    cases hk : lowestKey s.key with
    | none => rw [hk] at h; cases h; exact ⟨v, rfl⟩
    | some k => rw [hk] at h; cases h; exact ⟨v, rfl⟩
  case ldSTX x => cases h; exact ⟨s.reg x, rfl⟩
  case seImm | sneImm | seReg | sneReg | skp | sknp =>
    cases h; exact ⟨v, congrArg Host.Outcome.next (skipIf_withST s v _)⟩
  case ldB | ldMemX => cases h; exact ⟨v, congrArg Host.Outcome.next (storeBytes_withST s v _ _)⟩
  case ldXMem x =>
    obtain rfl : s.loadRegs x = t := Host.Outcome.next.inj h
    exact ⟨v, congrArg Host.Outcome.next (loadRegs_withST s v x)⟩
  all_goals cases h; exact ⟨v, rfl⟩

/-! ### Reduced addresses -/

theorem reduceAddr_add_congr {a a' : Word} (h : reduceAddr a = reduceAddr a') (k : Word) :
    reduceAddr (a + k) = reduceAddr (a' + k) := by
  simp only [reduceAddr_eq, BitVec.toNat_add] at h ⊢
  omega

theorem reduceAddr_add_size (a : Word) : reduceAddr (a + 0x1000) = reduceAddr a := by
  have hsize : (0x1000 : Word).toNat = 4096 := rfl
  simp only [reduceAddr_eq, BitVec.toNat_add, hsize]
  omega

theorem readByte_congr {s s' : State} {a a' : Word} (hmem : s.mem = s'.mem) (ha : reduceAddr a = reduceAddr a') :
    s.readByte a = s'.readByte a' := by
  rw [State.readByte, State.readByte, hmem, ha]

theorem fetchWord_add_size (s : State) : fetchWord { s with pc := s.pc + 0x1000 } = fetchWord s :=
  congrArg₂ wordOfBytes (readByte_congr rfl (reduceAddr_add_size s.pc))
    (readByte_congr rfl (reduceAddr_add_congr (reduceAddr_add_size s.pc) 1))

/-- Storing at another index and at an address that is the same after its reduction stores the same bytes. -/
theorem storeBytes_withI (s : State) (j : Word) {a a' : Word} (ha : reduceAddr a' = reduceAddr a) (bs : List Byte) :
    State.storeBytes { s with I := j } a' bs = { s.storeBytes a bs with I := j } := by
  induction bs generalizing s a a' with
  | nil => rfl
  | cons b bs ih =>
    have hwrite : State.writeByte { s with I := j } a' b = { s.writeByte a b with I := j } := by
      rw [State.writeByte, ha]; rfl
    rw [State.storeBytes, State.storeBytes, hwrite, ih (s.writeByte a b) (reduceAddr_add_congr ha 1)]

section
variable (s : State) {j : Word} (hj : reduceAddr j = reduceAddr s.I)
include hj

theorem readByte_indexAddr_withI (k : Nat) :
    State.readByte { s with I := j } (indexAddr { s with I := j } k) = s.readByte (indexAddr s k) :=
  readByte_congr rfl (reduceAddr_add_congr hj _)

theorem loadRegs_withI (x : Reg) : State.loadRegs { s with I := j } x = { s.loadRegs x with I := j } := by
  simp only [State.loadRegs, readByte_indexAddr_withI s hj]

theorem drawnCells_withI (x y : Reg) (n : Fin 16) : drawnCells { s with I := j } x y n = drawnCells s x y n := by
  simp only [drawnCells, spriteBytes, readByte_indexAddr_withI s hj]
  rfl

theorem draw_withI (x y : Reg) (n : Fin 16) : State.draw { s with I := j } x y n = { s.draw x y n with I := j } := by
  simp only [State.draw, drawing, drawnCells_withI s hj]
  rfl

/-- The instructions that access memory at `I` do the same at an index that is the same after its reduction. -/
theorem exec_withI {i : Instr} {t : State}
    (hi : (∃ x, i = .ldB x) ∨ (∃ x, i = .ldMemX x) ∨ (∃ x, i = .ldXMem x) ∨ ∃ x y n, i = .drw x y n)
    (h : exec i s = .next t) : exec i { s with I := j } = .next { t with I := j } := by
  obtain ⟨x, rfl⟩ | ⟨x, rfl⟩ | ⟨x, rfl⟩ | ⟨x, y, n, rfl⟩ := hi
  · cases h; exact congrArg Host.Outcome.next (storeBytes_withI s j hj _)
  · cases h; exact congrArg Host.Outcome.next (storeBytes_withI s j hj _)
  · obtain rfl : s.loadRegs x = t := Host.Outcome.next.inj h
    exact congrArg Host.Outcome.next (loadRegs_withI s hj x)
  · obtain rfl := Host.Outcome.next.inj ((exec_drw s x y n).symm.trans h)
    rw [exec_drw, draw_withI s hj]

end

end Sys2Proof.Machine

open Sys2Proof Sys2Proof.Machine

/-- Settles O53: RET and CALL reach only entries below the `sp` that they leave, and no other instruction reads the
stack. -/
theorem staleStackEntriesAreNotObserved : Obligations.StaleStackEntriesAreNotObserved := by
  intro s s' hs
  have hsp : s'.sp = s.sp := by rw [hs.1]
  refine ⟨fun t => step_next_transfer hs.fetchWord_eq fun i u hu => ?_, fun f hf => ?_⟩
  · obtain ⟨u', hu', h⟩ := exec_sameButStale (hs.advance _) hu
    exact ⟨u', hu', h.tick⟩
  · obtain ⟨f', hf', hcode⟩ := step_fault_transfer hs.fetchWord_eq hsp hf
    refine ⟨f', hf', hcode, ?_⟩
    rw [step_fault_left hf, step_fault_left hf', hs.fetchWord_eq]
    exact hs.advance _

/-- Settles O52: the fetch, the execute phase and the tick of the delay timer go the same way for every value of the
sound timer. -/
theorem soundTimerIsNotRead : Obligations.SoundTimerIsNotRead := by
  intro s v
  refine ⟨fun t ht => ?_, fun f hf => ?_⟩
  · suffices h : ∃ t', step { s with ST := v } = .next t' ∧ ∃ v', t' = { t with ST := v' } by
      obtain ⟨_, ht', v', rfl⟩ := h
      exact ⟨v', ht'⟩
    refine step_next_transfer (s := s) (s' := { s with ST := v }) (R := fun t t' => ∃ v', t' = { t with ST := v' })
      rfl (fun i u hu => ?_) ht
    obtain ⟨v', hv'⟩ := exec_withST v hu
    exact ⟨_, hv', tickTimer v', rfl⟩
  · obtain ⟨f', hf', hcode⟩ := step_fault_transfer (s := s) (s' := { s with ST := v }) rfl rfl hf
    exact ⟨f', hf', hcode, by rw [step_fault_left hf, step_fault_left hf']; rfl⟩

/-- Settles O55: the addresses of all accesses agree after their reduction. -/
theorem accessesReduceTheirAddress : Obligations.AccessesReduceTheirAddress :=
  ⟨fetchWord_add_size, fun _ s _ => exec_withI s (reduceAddr_add_size s.I)⟩
end

section
/-! PROOFS. Statements about runs: the RET behind its CALL (R131), the delay timer over many steps (R200), and the
self-jump (R110). -/

namespace Sys2Proof.Machine

/-- A step runs the execute phase of the instruction that its word decodes to. -/
theorem step_next_of_decode {s t : State} {i : Instr} (hd : decode (fetchWord s) = .ok i) (h : step s = .next t) :
    ∃ u, exec i (s.advance (fetchWord s)) = .next u ∧ t = u.tick := by
  obtain ⟨j, u, hj, hu, rfl⟩ := step_next_cases h
  obtain rfl : j = i := Except.ok.inj (hj.symm.trans hd)
  exact ⟨u, hu, rfl⟩

/-- What every step of a run keeps holds at its end. -/
theorem keeps_of_runs {P : State → Instr → Prop} {Q : State → Prop}
    (hstep : ∀ m m' i, decode (fetchWord m) = .ok i → P m i → step m = .next m' → Q m → Q m')
    {k : Nat} {s t : State} (h : Runs P k s t) (hs : Q s) : Q t := by
  induction h with
  | here => exact hs
  | step hd hp hm _ ih => exact ih (hstep _ _ _ hd hp hm hs)

/-! ### The entry of a call along a run -/

/-- The stack entry number `d` is in use and holds the return address `w`. -/
def HoldsReturn (d : Nat) (w : Word) (s : State) : Prop := d < s.sp.val ∧ s.stack[d]? = some w

/-- A CALL raises `sp` by one and leaves every entry but the one at `sp`, which gets the return address (R125). -/
theorem step_call {s t : State} {nnn : Addr12} (hd : decode (fetchWord s) = .ok (.call nnn)) (h : step s = .next t) :
    t.sp.val = s.sp.val + 1 ∧ t.stack[s.sp.val]? = some (s.pc + 2) ∧
      ∀ d, d ≠ s.sp.val → t.stack[d]? = s.stack[d]? := by
  obtain ⟨u, hu, rfl⟩ := step_next_of_decode hd h
  have hlt := exec_call_next hu
  obtain rfl := Host.Outcome.next.inj ((exec_call_of_lt hlt nnn).symm.trans hu)
  refine ⟨rfl, Vector.getElem?_set_self hlt, fun d hne => Vector.getElem?_set_ne hlt hne.symm⟩

/-- A RET lowers `sp` by one, leaves the stack's entries and sets `pc` to the one below `sp` (R122). -/
theorem step_ret {s t : State} (hd : decode (fetchWord s) = .ok .ret) (h : step s = .next t) :
    t.sp.val = s.sp.val - 1 ∧ t.stack = s.stack ∧ s.stack[s.sp.val - 1]? = some t.pc := by
  obtain ⟨u, hu, rfl⟩ := step_next_of_decode hd h
  obtain rfl := Host.Outcome.next.inj ((exec_ret_of_pos (exec_ret_next hu)).symm.trans hu)
  exact ⟨rfl, rfl, Vector.getElem?_eq_getElem _⟩

/-- A step that does not pop the entry keeps it: CALL writes above it, and nothing else writes the stack. -/
theorem step_keeps_holdsReturn {d : Nat} {w : Word} {s t : State} {i : Instr} (hd : decode (fetchWord s) = .ok i)
    (hpop : i = .ret → d + 1 < s.sp.val) (h : step s = .next t) (hs : HoldsReturn d w s) : HoldsReturn d w t := by
  obtain ⟨hlive, hentry⟩ := hs
  by_cases hi : usesStack i = true
  · cases i
    case call nnn =>
      obtain ⟨hsp, -, hkeep⟩ := step_call hd h
      exact ⟨by omega, (hkeep d hlive.ne).trans hentry⟩
    case ret =>
      obtain ⟨hsp, hstack, -⟩ := step_ret hd h
      have := hpop rfl
      exact ⟨by omega, by rw [hstack, hentry]⟩
    all_goals cases hi
  · replace hi := Bool.eq_false_iff.2 hi
    obtain ⟨u, hu, rfl⟩ := step_next_of_decode hd h
    have hsp := exec_sp_of_not_usesStack hu hi
    have hstack := exec_stack_of_not_usesStack hu hi
    exact ⟨by rwa [State.tick_sp, hsp], by rwa [State.tick_stack, hstack]⟩

/-! ### The delay timer along a run -/

theorem step_DT_of_ldDTX {s t : State} {x : Reg} (hd : decode (fetchWord s) = .ok (.ldDTX x)) (h : step s = .next t) :
    t.DT.toNat = s.V[x].toNat - 1 := by
  obtain ⟨u, hu, rfl⟩ := step_next_of_decode hd h
  cases hu
  exact tickTimer_toNat _

theorem step_DT_of_ne_ldDTX {s t : State} {i : Instr} (hd : decode (fetchWord s) = .ok i) (hi : ∀ x, i ≠ .ldDTX x)
    (h : step s = .next t) : t.DT.toNat = s.DT.toNat - 1 := by
  obtain ⟨u, hu, rfl⟩ := step_next_of_decode hd h
  rw [State.tick_DT, tickTimer_toNat, (exec_keeps_timers hu).1 hi, State.advance_DT]

/-- Without an LD DT the delay timer counts the steps down (R105). -/
theorem runs_DT {k : Nat} {s t : State} (h : Runs (fun _ i => ∀ z, i ≠ .ldDTX z) k s t) :
    t.DT.toNat = s.DT.toNat - k := by
  induction h with
  | here => rfl
  | step hd hp hm _ ih => rw [ih, step_DT_of_ne_ldDTX hd hp hm]; omega

theorem step_ldXDT {s : State} {y : Reg} (hd : decode (fetchWord s) = .ok (.ldXDT y)) :
    ∃ t, step s = .next t ∧ t.V[y] = s.DT :=
  ⟨_, step_of_next hd rfl, State.reg_setReg_self _ y _⟩

/-! ### The self-jump -/

theorem AtSelfJump.step_eq {s : State} (h : AtSelfJump s) : step s = .next (s.idleFor 1) := by
  obtain ⟨nnn, hd, hpc⟩ := h
  have htarget : zextAddr nnn = s.pc := BitVec.eq_of_toNat_eq ((zextAddr_toNat nnn).trans hpc.symm)
  rw [step_of_next hd rfl, htarget, State.tick_setPc_advance]

/-- A self-jump depends on `pc` and memory alone. -/
theorem AtSelfJump.idleFor {s : State} (h : AtSelfJump s) (k : Nat) : AtSelfJump (s.idleFor k) := h

end Sys2Proof.Machine

open Sys2Proof Sys2Proof.Machine

/-- Settles O56: the CALL's entry is kept along the run, and the RET finds it below `sp`. -/
theorem retReturnsBehindItsCall : Obligations.RetReturnsBehindItsCall := by
  intro nnn n s t u hcall hst hrun hsp hret
  obtain ⟨htsp, hentry, -⟩ := step_call hcall hst
  have ht : HoldsReturn s.sp.val (s.pc + 2) t := ⟨by omega, hentry⟩
  obtain ⟨hlive, hpushed⟩ : HoldsReturn s.sp.val (s.pc + 2) u :=
    keeps_of_runs (fun m m' i hd hp => step_keeps_holdsReturn hd fun hi => htsp ▸ hp hi) hrun ht
  have hv := step_of_next hret (exec_ret_of_pos (s := u.advance (fetchWord u)) (Nat.zero_lt_of_lt hlive))
  obtain ⟨hvsp, -, hpop⟩ := step_ret hret hv
  have htop : u.sp.val - 1 = s.sp.val := by rw [hsp, htsp]; rfl
  rw [htop] at hpop hvsp
  refine ⟨_, hv, ?_, Fin.ext hvsp⟩
  rw [← Option.some.inj (hpushed.symm.trans hpop)]
  exact congrArg State.pc (s.advance_eq_ofNat (fetchWord s))

/-- Settles O57: the timer holds the loaded value less one after the LD DT, and each step of the run takes one off. -/
theorem delayTimerCountsStepsDown : Obligations.DelayTimerCountsStepsDown := by
  intro x y k s t u hload hst hrun hread
  obtain ⟨v, hv, hVy⟩ := step_ldXDT hread
  refine ⟨v, hv, ?_⟩
  rw [hVy, runs_DT hrun, step_DT_of_ldDTX hload hst]
  omega

/-- Settles O59: the jump sets `pc` back to where it was, so the step idles, and idling keeps `pc` and memory. -/
theorem selfJumpOnlyTicksTheTimers : Obligations.SelfJumpOnlyTicksTheTimers :=
  fun _ k h => run_eq_idleFor (fun _ => AtSelfJump.step_eq) (fun _ hs => hs.idleFor 1) h k
end

section
/-! PROOFS. Memory as the instructions and the host see it: stores through `I` (R163, R165, R166), loads from it
(R167), the fetch after a store (R62), reset (R39) and the host's load (R243). -/

namespace Sys2Proof.Machine

/-! ### Stores from `I` upward -/

/-- The last write to a reduced address is what a read there gives (R60). -/
theorem readByte_writeByte {s : State} (hs : s.Inv) (a b : Word) (v : Byte) :
    (s.writeByte a v).readByte b = if a.toNat % 4096 = b.toNat % 4096 then v else s.readByte b := by
  simp only [State.readByte, State.writeByte_mem, ← reduceAddr_eq]
  split
  · rename_i h; rw [← h, Memory.read_write_self hs.1]
  · rename_i h; exact Memory.read_write_ne _ _ h

section
variable {s : State} (bs : List Byte)

theorem read_storeBytes_I (hs : s.Inv) (hl : bs.length ≤ 4096) {k : Nat} (hk : k < bs.length) :
    (s.storeBytes s.I bs).mem.read ((s.I.toNat + k) % 4096) = bs[k] := by
  rw [← reduceAddr_indexAddr]
  exact State.storeBytes_read hs s.I bs hl hk

theorem read_storeBytes_I_ne {a : Nat} (h : ∀ k, k < bs.length → a ≠ (s.I.toNat + k) % 4096) :
    (s.storeBytes s.I bs).mem.read a = s.mem.read a :=
  s.storeBytes_read_ne s.I bs fun k hk => reduceAddr_indexAddr s k ▸ h k hk

end

/-- What LD [I], Vx stores. -/
theorem getElem_take_regs (s : State) (x k : Reg) (hk : k.val < (s.V.toList.take (x.val + 1)).length) :
    (s.V.toList.take (x.val + 1))[k.val] = s.V[k] := by
  simp

theorem length_take_regs (s : State) (x : Reg) : (s.V.toList.take (x.val + 1)).length = x.val + 1 :=
  length_stored (.ldMemX x) s

/-- LD [I], Vx puts `V[k]` at `I + k` (R166). -/
theorem read_dump {s : State} (hs : s.Inv) {x k : Reg} (hk : k ≤ x) :
    (s.storeBytes s.I (s.V.toList.take (x.val + 1))).mem.read ((s.I.toNat + k.val) % 4096) = s.V[k] := by
  have hlen := length_take_regs s x
  have hlt : k.val < (s.V.toList.take (x.val + 1)).length := (Nat.lt_succ_of_le hk).trans_eq hlen.symm
  rw [read_storeBytes_I _ hs (by omega) hlt, getElem_take_regs]

/-! ### The host's load -/

theorem load_of_le_maxImage {bytes : List Byte} (h : bytes.length ≤ 3584) (s : State) :
    load bytes s = .next (s.storeBytes Config.origin bytes) := if_neg (Nat.not_lt_of_le h)

/-- An image of at most 3584 bytes does not wrap. -/
theorem reduceAddr_origin_add {k : Nat} (hk : k < 3584) : reduceAddr (Config.origin + BitVec.ofNat 16 k) = 512 + k := by
  have horigin : Config.origin.toNat = 512 := rfl
  rw [reduceAddr_eq, BitVec.toNat_add, BitVec.toNat_ofNat, horigin]
  omega

theorem read_reset_of_le {a : Nat} (ha : 80 ≤ a) : Memory.read [] a = 0 :=
  List.getD_eq_default _ _ ha

end Sys2Proof.Machine

open Sys2Proof Sys2Proof.Machine

/-- Settles O28: three bytes are stored, each digit of a byte fits a byte, and no other byte is written. -/
theorem ldBStoresDecimalDigits : Obligations.LdBStoresDecimalDigits := by
  refine fun x => ⟨decode_of_eq_encode (wordXKK_eq_packXKK 0xF x 0x33), fun s hs => ⟨_, rfl, s.storeBytes_eq _ _, ?_⟩⟩
  have hread (k : Nat) (hk : k < 3) := read_storeBytes_I (bcdDigits (s.reg x)) hs (show 3 ≤ 4096 by decide) hk
  have := (s.V[x]).isLt
  refine ⟨?_, ?_, ?_, fun a h0 h1 h2 => ?_⟩
  · exact (congrArg BitVec.toNat (hread 0 (by decide))).trans (Nat.mod_eq_of_lt (by omega))
  · exact (congrArg BitVec.toNat (hread 1 (by decide))).trans (Nat.mod_eq_of_lt (by omega))
  · exact (congrArg BitVec.toNat (hread 2 (by decide))).trans (Nat.mod_eq_of_lt (by omega))
  · refine read_storeBytes_I_ne _ fun k hk => ?_
    have hk : k < 3 := hk
    interval_cases k
    · exact h0
    · exact h1
    · exact h2

/-- Settles O29: the dump is read back register by register, and no other byte is written. -/
theorem ldMemDumpsRegisters : Obligations.LdMemDumpsRegisters := by
  refine fun x => ⟨decode_of_eq_encode (wordXKK_eq_packXKK 0xF x 0x55), fun s hs => ⟨_, rfl, s.storeBytes_eq _ _, ?_⟩⟩
  refine ⟨fun k hk => read_dump hs hk, fun a ha => read_storeBytes_I_ne _ fun k hk => ?_⟩
  rw [length_take_regs] at hk
  exact ha ⟨k, by omega⟩ (Nat.le_of_lt_succ hk)

/-- Settles O30: each loaded byte is read at its reduced address. -/
theorem ldXMemLoadsRegisters : Obligations.LdXMemLoadsRegisters := by
  refine fun x => ⟨decode_of_eq_encode (wordXKK_eq_packXKK 0xF x 0x65), fun s => ⟨s.loadRegs x, rfl, rfl, fun k => ?_⟩⟩
  rw [State.loadRegs_V, readByte_indexAddr]

/-- Settles O47: field by field; empty memory reads as the font and then zeros. -/
theorem resetGivesTheListedValues : Obligations.ResetGivesTheListedValues := by
  intro s t
  refine ⟨?_, rfl, rfl, rfl, ?_, rfl, rfl, ?_, ?_, rfl, fun a => read_reset_of_le, rfl, rfl⟩
  · exact fun r => Vector.getElem_replicate _
  · exact fun r => Vector.getElem_replicate _
  · exact fun r => Vector.getElem_replicate _
  · exact cell_blankScreen

/-- Settles O49: an image that fits is stored without a wrap, and no other byte is written. -/
theorem loadCopiesTheImage : Obligations.LoadCopiesTheImage := by
  intro bytes s hs hlen
  refine ⟨_, load_of_le_maxImage hlen s, s.storeBytes_eq _ _, fun k hk => ?_, fun a ha => ?_⟩
  · rw [← reduceAddr_origin_add (hk.trans_le hlen), State.storeBytes_read hs _ _ (hlen.trans (by decide)) hk,
      List.getElem?_eq_getElem hk]
  · refine s.storeBytes_read_ne _ _ fun k hk => ?_
    rw [reduceAddr_origin_add (hk.trans_le hlen)]
    omega

/-- Settles O50, by whether the reduced addresses agree. -/
theorem readGivesTheLastWrite : Obligations.ReadGivesTheLastWrite :=
  fun _ a b v hs => ⟨readByte_writeByte hs a b v, rfl⟩

/-- Settles O51: the fetch at a stored pair of addresses reads the two registers dumped there. -/
theorem storesAreSeenByTheNextFetch : Obligations.StoresAreSeenByTheNextFetch := by
  intro x j k s t u hs hjk hkx h hmem hpc
  obtain rfl := Host.Outcome.next.inj h
  have hlo : (u.pc.toNat + 1) % 4096 = (s.I.toNat + k.val) % 4096 := by
    rw [← hjk, ← Nat.add_assoc]
    exact Nat.ModEq.add_right 1 hpc
  have hj : j ≤ x := Nat.le_trans (by omega : j.val ≤ k.val) hkx
  apply BitVec.eq_of_toNat_eq
  rw [fetchWord_toNat, hmem, hpc, hlo, read_dump hs hkx, read_dump hs hj, BitVec.toNat_ofNat]
  have := (s.V[j]).isLt
  have := (s.V[k]).isLt
  omega
end

section
/-! PROOFS. The phases of a step (R100) and the execute phases of the single instructions, as numbers (41 to 45). -/

namespace Sys2Proof.Machine

/-! ### The phases of a step -/

theorem eq_ofNat_of_toNat_eq {w : Nat} {v : BitVec w} {n : Nat} (h : v.toNat = n) : v = BitVec.ofNat w n :=
  (BitVec.toNat_eq_nat.1 h).2

theorem State.tick_eq_ofNat (s : State) :
    s.tick = { s with DT := BitVec.ofNat 8 (s.DT.toNat - 1), ST := BitVec.ofNat 8 (s.ST.toNat - 1) } := by
  rw [State.tick, tickTimer_eq_ofNat, tickTimer_eq_ofNat]

/-! ### Skips -/

section
variable (s : State)

theorem State.skipIf_eq (c : Bool) :
    s.skipIf c = { s with pc := if c then BitVec.ofNat 16 (s.pc.toNat + 2) else s.pc } := by
  cases c with
  | false => rfl
  | true => rw [if_pos rfl, ← add_two_eq_ofNat]; rfl

theorem State.skipIf_not (c : Bool) :
    s.skipIf (!c) = { s with pc := if c then s.pc else BitVec.ofNat 16 (s.pc.toNat + 2) } := by
  cases c with
  | false => exact s.skipIf_eq true
  | true => rfl

theorem State.skipIf_beq (a b : Byte) :
    s.skipIf (a == b) = { s with pc := if a = b then BitVec.ofNat 16 (s.pc.toNat + 2) else s.pc } := by
  simp only [s.skipIf_eq, beq_iff_eq]

theorem State.skipIf_bne (a b : Byte) :
    s.skipIf (a != b) = { s with pc := if a = b then s.pc else BitVec.ofNat 16 (s.pc.toNat + 2) } := by
  simp only [bne, s.skipIf_not, beq_iff_eq]

end

/-! ### Results and flags as numbers -/

section
variable (a b : Byte)

theorem flagByte_decide (c : Prop) [Decidable c] : flagByte (decide c) = if c then 1 else 0 := by
  simp only [flagByte, decide_eq_true_eq]

theorem sumByte_eq_ofNat : sumByte a b = BitVec.ofNat 8 ((a.toNat + b.toNat) % 256) :=
  eq_ofNat_of_toNat_eq (sumByte_toNat a b)

theorem carryFlag_eq_ite : carryFlag a b = if a.toNat + b.toNat > 255 then 1 else 0 := flagByte_decide _

theorem differenceByte_eq_ofNat : differenceByte a b = BitVec.ofNat 8 ((a.toNat + 256 - b.toNat) % 256) :=
  eq_ofNat_of_toNat_eq (differenceByte_toNat a b)

theorem greaterFlag_eq_ite : greaterFlag a b = if a.toNat > b.toNat then 1 else 0 := flagByte_decide _

theorem shiftRightByte_eq_ofNat : shiftRightByte a = BitVec.ofNat 8 (a.toNat / 2) :=
  eq_ofNat_of_toNat_eq (shiftRightByte_toNat a)

theorem lowBitFlag_eq_ofNat : lowBitFlag a = BitVec.ofNat 8 (a.toNat % 2) :=
  eq_ofNat_of_toNat_eq (lowBitFlag_toNat a)

theorem shiftLeftByte_eq_ofNat : shiftLeftByte a = BitVec.ofNat 8 (2 * a.toNat % 256) :=
  eq_ofNat_of_toNat_eq (shiftLeftByte_toNat a)

theorem highBitFlag_eq_ofNat : highBitFlag a = BitVec.ofNat 8 (a.toNat / 128) :=
  eq_ofNat_of_toNat_eq (highBitFlag_toNat a)

end

theorem zextAddr_eq_ofNat (nnn : Addr12) : zextAddr nnn = BitVec.ofNat 16 nnn.toNat :=
  eq_ofNat_of_toNat_eq (zextAddr_toNat nnn)

theorem glyphAddr_eq_ofNat (d : Byte) : glyphAddr d = BitVec.ofNat 16 (5 * d.toNat) :=
  eq_ofNat_of_toNat_eq (glyphAddr_toNat d)

theorem add_zextByte_eq_ofNat (a : Word) (b : Byte) :
    a + zextByte b = BitVec.ofNat 16 ((a.toNat + b.toNat) % 65536) :=
  eq_ofNat_of_toNat_eq (by rw [BitVec.toNat_add, zextByte_toNat])

end Sys2Proof.Machine

open Sys2Proof Sys2Proof.Machine

/-- Settles O6: the fetched word and the advanced state as numbers, and the three outcomes of the step. -/
theorem stepRunsTheDecodedInstruction : Obligations.StepRunsTheDecodedInstruction := by
  intro s
  have hw := eq_ofNat_of_toNat_eq (fetchWord_toNat s)
  simp only [← hw, ← State.advance_eq_ofNat, ← State.tick_eq_ofNat]
  exact ⟨trivial, fun r hr => step_of_reject hr,
    fun i hi => ⟨fun f hf => ⟨step_of_fault hi hf, exec_fault_left hf⟩, fun t ht => step_of_next hi ht⟩⟩

/-- Settles O10: a blank screen has every cell off. -/
theorem clsTurnsEveryCellOff : Obligations.ClsTurnsEveryCellOff :=
  ⟨rfl, fun _ => ⟨_, rfl, rfl, cell_blankScreen⟩⟩

/-- Settles O11: the pop takes the entry below `sp`, and an empty stack is one of the three execute errors. -/
theorem retPopsOrUnderflows : Obligations.RetPopsOrUnderflows := by
  refine ⟨rfl, fun s => ⟨fun h => ⟨_, exec_ret_of_pos h, rfl, rfl, Vector.getElem?_eq_getElem _⟩, fun h => ?_⟩⟩
  exact exec_fault_iff.2 (.inr (.inr ⟨rfl, h, rfl⟩))

/-- Settles O12: the word is well formed as SYS, and SYS is one of the three execute errors in every state. -/
theorem sysAlwaysRaisesDecodeError : Obligations.SysAlwaysRaisesDecodeError := by
  refine fun nnn hcls hret => ⟨decode_of_eq_encode (wordNNN_eq_packNNN 0 nnn) ?_, fun s => ?_⟩
  · exact Bool.and_eq_true_iff.2 ⟨bne_iff_ne.2 hcls, bne_iff_ne.2 hret⟩
  · exact exec_fault_iff.2 (.inl ⟨nnn, rfl, rfl⟩)

/-- Settles O13: the zero-extended address as a number. -/
theorem jpSetsPc : Obligations.JpSetsPc := by
  refine fun nnn => ⟨decode_of_eq_encode (wordNNN_eq_packNNN 1 nnn), fun s => ?_⟩
  rw [← zextAddr_eq_ofNat]
  rfl

/-- Settles O14: the sum of a byte and an address does not reach 2^16. -/
theorem jpV0AddsV0 : Obligations.JpV0AddsV0 := fun nnn =>
  ⟨decode_of_eq_encode (wordNNN_eq_packNNN 0xB nnn), fun s => ⟨_, rfl, rfl, offsetTarget_toNat s nnn⟩⟩

/-- Settles O15: the push writes the entry at `sp`, and a full stack is one of the three execute errors. -/
theorem callPushesOrOverflows : Obligations.CallPushesOrOverflows := by
  refine fun nnn => ⟨decode_of_eq_encode (wordNNN_eq_packNNN 2 nnn), fun s => ⟨fun h => ?_, fun h => ?_⟩⟩
  · refine ⟨_, exec_call_of_lt h nnn, rfl, rfl, zextAddr_eq_ofNat nnn, fun k => ?_⟩
    simp only [Fin.getElem_fin, Vector.getElem_set, eq_comm]
  · exact exec_fault_iff.2 (.inr (.inl ⟨nnn, rfl, h, rfl⟩))

/-- Settles O16: a skip on equality and a skip on its negation. -/
theorem immediateSkips : Obligations.ImmediateSkips := fun x kk =>
  ⟨decode_of_eq_encode (wordXKK_eq_packXKK 3 x kk), decode_of_eq_encode (wordXKK_eq_packXKK 4 x kk), fun s =>
    ⟨congrArg Host.Outcome.next (s.skipIf_beq _ _), congrArg Host.Outcome.next (s.skipIf_bne _ _)⟩⟩

/-- Settles O17: a skip on equality and a skip on its negation; the decoder tests the low nibble. -/
theorem registerSkips : Obligations.RegisterSkips := by
  refine fun x y => ⟨decode_of_eq_encode (wordXYN_eq_packXYN 5 x y 0),
    decode_of_eq_encode (wordXYN_eq_packXYN 9 x y 0), fun n hn => ⟨?_, ?_⟩, fun s =>
    ⟨congrArg Host.Outcome.next (s.skipIf_beq _ _), congrArg Host.Outcome.next (s.skipIf_bne _ _)⟩⟩
  · rw [show wordXYN 5 x y n.val = packXYN 5 x y n from wordXYN_eq_packXYN 5 x y n]
    simp [decode, hn]
  · rw [show wordXYN 9 x y n.val = packXYN 9 x y n from wordXYN_eq_packXYN 9 x y n]
    simp [decode, hn]

/-- Settles O18: both are one register write. -/
theorem registerLoads : Obligations.RegisterLoads :=
  ⟨fun x kk => ⟨decode_of_eq_encode (wordXKK_eq_packXKK 6 x kk), fun _ => rfl⟩,
    fun x y => ⟨decode_of_eq_encode (wordXYN_eq_packXYN 8 x y 0), fun _ => rfl⟩⟩

/-- Settles O19: a register write of the narrowed sum. -/
theorem addImmediateWrapsWithoutFlag : Obligations.AddImmediateWrapsWithoutFlag := by
  refine fun x kk => ⟨decode_of_eq_encode (wordXKK_eq_packXKK 7 x kk), fun s => ?_⟩
  rw [← sumByte_eq_ofNat]
  rfl

/-- Settles O20: each is a register write of a bitwise operation, which commutes with `toNat`. -/
theorem bitwiseOperations : Obligations.BitwiseOperations := by
  refine fun x y => ⟨decode_of_eq_encode (wordXYN_eq_packXYN 8 x y 1), decode_of_eq_encode (wordXYN_eq_packXYN 8 x y 2),
    decode_of_eq_encode (wordXYN_eq_packXYN 8 x y 3), fun s => ?_⟩
  rw [← eq_ofNat_of_toNat_eq (BitVec.toNat_or s.V[x] s.V[y]), ← eq_ofNat_of_toNat_eq (BitVec.toNat_and s.V[x] s.V[y]),
    ← eq_ofNat_of_toNat_eq (BitVec.toNat_xor s.V[x] s.V[y])]
  exact ⟨rfl, rfl, rfl⟩

/-- Settles O21: the narrowed sum first, the carry last. -/
theorem addSetsCarry : Obligations.AddSetsCarry := by
  refine fun x y => ⟨decode_of_eq_encode (wordXYN_eq_packXYN 8 x y 4), fun s => ?_⟩
  rw [← sumByte_eq_ofNat, ← carryFlag_eq_ite]
  rfl

/-- Settles O22: the narrowed difference first, the strict flag last. -/
theorem subtractionsSetGreaterFlag : Obligations.SubtractionsSetGreaterFlag := by
  refine fun x y => ⟨decode_of_eq_encode (wordXYN_eq_packXYN 8 x y 5), decode_of_eq_encode (wordXYN_eq_packXYN 8 x y 7),
    fun s => ?_⟩
  simp only [← differenceByte_eq_ofNat, ← greaterFlag_eq_ite]
  exact ⟨rfl, rfl⟩

/-- Settles O23: the shifted byte first, the lost bit last. -/
theorem shiftsMoveOneBitIntoVF : Obligations.ShiftsMoveOneBitIntoVF := by
  refine fun x y => ⟨decode_of_eq_encode (wordXYN_eq_packXYN 8 x y 6), decode_of_eq_encode (wordXYN_eq_packXYN 8 x y 14),
    fun s => ?_⟩
  simp only [← shiftRightByte_eq_ofNat, ← lowBitFlag_eq_ofNat, ← shiftLeftByte_eq_ofNat, ← highBitFlag_eq_ofNat]
  exact ⟨rfl, rfl⟩

/-- Settles O24: a register write and one more draw. -/
theorem rndMasksAFreshByte : Obligations.RndMasksAFreshByte := fun x kk =>
  ⟨decode_of_eq_encode (wordXKK_eq_packXKK 0xC x kk), fun _ => ⟨_, rfl, rfl, rfl⟩⟩

/-- Settles O25: the zero-extended address as a number. -/
theorem ldISetsIndex : Obligations.LdISetsIndex := by
  refine fun nnn => ⟨decode_of_eq_encode (wordNNN_eq_packNNN 0xA nnn), fun s => ?_⟩
  rw [← zextAddr_eq_ofNat]
  rfl

/-- Settles O26: the sum is taken modulo 2^16. -/
theorem addIWrapsWithoutFlag : Obligations.AddIWrapsWithoutFlag := by
  refine fun x => ⟨decode_of_eq_encode (wordXKK_eq_packXKK 0xF x 0x1E), fun s => ?_⟩
  rw [← add_zextByte_eq_ofNat]
  rfl

/-- Settles O27: the glyph's address as a number; the two values of the parameter part above 0xF only. -/
theorem ldFPointsAtTheGlyph : Obligations.LdFPointsAtTheGlyph := by
  refine fun x => ⟨decode_of_eq_encode (wordXKK_eq_packXKK 0xF x 0x29), fun s => ?_, fun s d oor hd => ?_⟩
  · rw [← glyphAddr_eq_ofNat]
    rfl
  · rw [← glyphAddr_eq_ofNat]
    cases oor with
    | literal => rfl
    | draw => exact if_pos hd

/-- Settles O33: the tested key is `V[x]` modulo 16, and a skip on it or on its negation. -/
theorem keySkips : Obligations.KeySkips := by
  refine fun x => ⟨decode_of_eq_encode (wordXKK_eq_packXKK 0xE x 0x9E),
    decode_of_eq_encode (wordXKK_eq_packXKK 0xE x 0xA1), fun s k hk => ?_⟩
  obtain rfl : keyIndex (s.reg x) = k := Fin.ext ((keyIndex_val _).trans hk.symm)
  exact ⟨congrArg Host.Outcome.next (s.skipIf_eq _), congrArg Host.Outcome.next (s.skipIf_not _)⟩

/-- Settles O34: the search finds the lowest pressed key or none. -/
theorem keyWaitStoresLowestKey : Obligations.KeyWaitStoresLowestKey := by
  refine fun x => ⟨decode_of_eq_encode (wordXKK_eq_packXKK 0xF x 0x0A), fun s => ⟨fun k hk hlow => ?_, fun h => ?_⟩⟩
  · simp only [exec, execLdXK, lowestKey_eq_some.2 ⟨hk, hlow⟩]
    rfl
  · have hback : s.pc - 2 = BitVec.ofNat 16 (s.pc.toNat + 65534) :=
      BitVec.eq_of_toNat_eq (by simp [BitVec.toNat_sub, Nat.add_comm])
    rw [← hback]
    exact execLdXK_of_no_key h x

/-- Settles O35: the execute phase moves one byte, and the tick takes one off the timer. -/
theorem delayTimerInstructions : Obligations.DelayTimerInstructions := by
  intro x
  have hread : decode (wordXKK 0xF x 0x07) = .ok (.ldXDT x) :=
    decode_of_eq_encode (wordXKK_eq_packXKK 0xF x 0x07)
  have hload : decode (wordXKK 0xF x 0x15) = .ok (.ldDTX x) :=
    decode_of_eq_encode (wordXKK_eq_packXKK 0xF x 0x15)
  refine ⟨hread, hload, fun s => ⟨rfl, rfl, fun hw => ?_, fun hw => ?_⟩⟩
  · rw [← hw] at hread
    obtain ⟨t, ht, hV⟩ := step_ldXDT hread
    exact ⟨t, ht, hV, step_DT_of_ne_ldDTX hread nofun ht⟩
  · rw [← hw] at hload
    have ht := step_of_next hload rfl
    exact ⟨_, ht, step_DT_of_ldDTX hload ht⟩

/-- Settles O36: the execute phase moves one byte, and the tick takes one off the timer. -/
theorem soundTimerInstruction : Obligations.SoundTimerInstruction := by
  intro x
  have hload : decode (wordXKK 0xF x 0x18) = .ok (.ldSTX x) :=
    decode_of_eq_encode (wordXKK_eq_packXKK 0xF x 0x18)
  refine ⟨hload, fun s => ⟨rfl, fun hw => ?_⟩⟩
  rw [← hw] at hload
  have ht := step_of_next hload rfl
  exact ⟨_, ht, tickTimer_toNat _⟩
end
